-- ==== Sys2Proof/Word.lean ====
section
/-! DEFINITION. The two word types of the block: the byte of a byte string (R10) and the 32-bit word the bus moves
and a register holds (R33, R82). -/

namespace Sys2Proof

/-- One 8-bit byte of a byte string or of the data buffer (R10, R47). -/
abbrev Byte := BitVec 8

/-- One 32-bit bus word: a command word, or the whole of a 32-bit register (R33, R120). -/
abbrev Word := BitVec 32

end Sys2Proof
end

