-- ==== Sys2Proof/Config.lean ====
section
/-! DEFINITION. What an implementation fixes (R8), and the free values the spec leaves open. An `opaque` constant has
no body, so no proof can learn its value and every theorem holds whatever it is. -/

namespace Sys2Proof.Config

/-- Bytes of the data buffer `BUF`: `BUF_SIZE` (R8, D14). -/
def bufSize : Nat := 512

/-- Bytes of the register window (R33, R80). -/
def windowSize : Nat := 1024

/-- `BASE` is OPEN (R8, D2, U2): the platform chooses it.
The number of whole KiB below the window is left free, so that the base is aligned by construction. -/
opaque baseKiB : Nat

/-- The physical base address of the window, 1 KiB-aligned (R8, R90). -/
def base : Nat := windowSize * baseKiB

/-- `BUF_RESET` is a draw (R8, R47, D34, U1): one arbitrary byte for each location, fixed until it is written.
The first argument numbers the draw, since every reset makes a new one; the second is the location. -/
opaque bufReset : Nat → Nat → Byte

/-- What a register holds when power returns and no reset has come yet (R357, U13: any value).
The first argument numbers the draw, the second the register. -/
opaque powerUp : Nat → Nat → Nat

/-- The index byte of a counter block whose index is 256 or more (R280, N18): nothing is known of it, and no command
reaches one (R286, log entry 19). -/
opaque wideIndex : Nat → Byte

end Sys2Proof.Config
end

