-- ==== Sys2Proof/Syntax.lean ====
section
/-! DEFINITION. The syntax of the block: the 20 commands (R121), the registers and keys of its window by name (R33,
R46), what the host and the platform can do to it (R97), and the host program syntax of R127 and R128. -/

namespace Sys2Proof

/-- The direction of a command: 0 is uplink, 1 is downlink (R34, R120). -/
inductive Dir where
  | up
  | down
  deriving DecidableEq, Repr

/-- The mnemonics of the opcode map (R121), one for each row of the opcode table. -/
inductive Mnemonic where
  | micDataSet
  | micDataChk
  | micJrSet
  | micJrChk
  | micJaSet
  | micJaChk
  | ctrEnc
  | ctrDec
  | jaEnc
  | jaDec
  | encDevaddr
  | decDevaddr
  | encEui
  | decEui
  | encNonce16
  | decNonce16
  | encNonce24
  | decNonce24
  | encFreq24
  | decFreq24
  deriving DecidableEq, Repr

/-- One command of the block. A command word carries no immediate and no register number (R126): the only operand in
the word is the direction, and only the commands marked "DIR used" in R121 have it (R122). -/
inductive Instr where
  /-- `MIC_DATA_SET`: set the MIC of a data frame (R244). -/
  | micDataSet (dir : Dir)
  /-- `MIC_DATA_CHK`: check the MIC of a data frame (R245). -/
  | micDataChk (dir : Dir)
  /-- `MIC_JR_SET`: set the MIC of a JoinRequest (R247). -/
  | micJrSet
  /-- `MIC_JR_CHK`: check the MIC of a JoinRequest (R248). -/
  | micJrChk
  /-- `MIC_JA_SET`: set the MIC of a JoinAccept (R250). -/
  | micJaSet
  /-- `MIC_JA_CHK`: check the MIC of a JoinAccept (R251). -/
  | micJaChk
  /-- `CTR_ENC`: encrypt the FRMPayload in place (R283). -/
  | ctrEnc (dir : Dir)
  /-- `CTR_DEC`: decrypt the FRMPayload in place (R284). -/
  | ctrDec (dir : Dir)
  /-- `JA_ENC`: encrypt a JoinAccept, with the AES decrypt direction (R312). -/
  | jaEnc
  /-- `JA_DEC`: decrypt a JoinAccept, with the AES encrypt direction (R313). -/
  | jaDec
  /-- `ENC_DEVADDR` (R203). -/
  | encDevaddr
  /-- `DEC_DEVADDR` (R204). -/
  | decDevaddr
  /-- `ENC_EUI` (R205). -/
  | encEui
  /-- `DEC_EUI` (R206). -/
  | decEui
  /-- `ENC_NONCE16` (R207). -/
  | encNonce16
  /-- `DEC_NONCE16` (R208). -/
  | decNonce16
  /-- `ENC_NONCE24` (R209). -/
  | encNonce24
  /-- `DEC_NONCE24` (R210). -/
  | decNonce24
  /-- `ENC_FREQ24` (R211). -/
  | encFreq24
  /-- `DEC_FREQ24` (R212). -/
  | decFreq24
  deriving DecidableEq, Repr

/-- The 32-bit registers of the window that can be read (R33). `CMD` is not among them: it holds no state (R34). -/
inductive Reg where
  | status
  | ctrl
  | len
  | devaddr
  | fcnt32
  | fport
  | payoff
  | paylen
  | foff
  | valLo
  | valHi
  | mic
  deriving DecidableEq, Repr

/-- The three key registers (R46). -/
inductive KeyName where
  | nwkskey
  | appskey
  | appkey
  deriving DecidableEq, Repr

/-- The names of the register map (R33), in its order. -/
inductive WindowName where
  | cmd
  | reg (r : Reg)
  | key (k : KeyName)
  | buf
  deriving DecidableEq, Repr

/-- How a bus access names its target: by its offset in the window, which is how the spec's rules speak (R14, R81), or
by a physical address, of which the window covers the 1 KiB from `BASE` (R80, R90). -/
inductive BusAddr where
  | window (off : Nat)
  | physical (addr : Nat)
  deriving DecidableEq, Repr

/-- One thing the host or the platform does to the block (R17, R97, R382). The widths are in bytes. -/
inductive HostEvent where
  /-- `HostRead(off, w)` (R81). -/
  | read (a : BusAddr) (w : Nat)
  /-- `HostWrite(off, w, v)` (R81); with offset 0 and width 4 it starts the command `v` encodes (R85). -/
  | write (a : BusAddr) (w v : Nat)
  /-- The platform asserts reset (R380). -/
  | reset
  /-- Power returns after a power-down and reset has not come yet (R357, U13). -/
  | powerUp
  deriving DecidableEq, Repr

/-- One line of a host program: the accesses of R127, then the pseudo-instructions of R128. -/
inductive HostLine where
  | sw (off imm : Nat)
  | sh (off imm : Nat)
  | sb (off imm : Nat)
  | lw (off : Nat)
  | lh (off : Nat)
  | lb (off : Nat)
  | reset
  /-- `cmd MNEMONIC, up` (also written without a direction) and `cmd MNEMONIC, down`. -/
  | cmd (m : Mnemonic) (dir : Dir)
  /-- `key NAME, b0 b1 … b15`. -/
  | key (k : KeyName) (bytes : List Byte)
  /-- `buf a, b0 b1 … b(n-1)`. -/
  | buf (a : Nat) (bytes : List Byte)
  /-- `setval imm64`. -/
  | setval (imm : Nat)
  /-- `wreg NAME, imm32`, with `NAME` any name of the register map (R127, log entry 18). -/
  | wreg (name : WindowName) (imm : Nat)
  deriving DecidableEq, Repr

end Sys2Proof
end

