-- ==== Sys2Proof/WellFormed.lean ====
section
/-! DEFINITION. Which terms of the syntax stand for something the host can write. -/

namespace Sys2Proof

/-- The commands marked "DIR used" in R121. -/
def Mnemonic.usesDir : Mnemonic → Bool
  | .micDataSet | .micDataChk | .ctrEnc | .ctrDec => true
  | .micJrSet | .micJrChk | .micJaSet | .micJaChk | .jaEnc | .jaDec
  | .encDevaddr | .decDevaddr | .encEui | .decEui | .encNonce16 | .decNonce16
  | .encNonce24 | .decNonce24 | .encFreq24 | .decFreq24 => false

/-- The mnemonic of a command (R121). -/
def Instr.mnemonic : Instr → Mnemonic
  | .micDataSet _ => .micDataSet
  | .micDataChk _ => .micDataChk
  | .micJrSet => .micJrSet
  | .micJrChk => .micJrChk
  | .micJaSet => .micJaSet
  | .micJaChk => .micJaChk
  | .ctrEnc _ => .ctrEnc
  | .ctrDec _ => .ctrDec
  | .jaEnc => .jaEnc
  | .jaDec => .jaDec
  | .encDevaddr => .encDevaddr
  | .decDevaddr => .decDevaddr
  | .encEui => .encEui
  | .decEui => .decEui
  | .encNonce16 => .encNonce16
  | .decNonce16 => .decNonce16
  | .encNonce24 => .encNonce24
  | .decNonce24 => .decNonce24
  | .encFreq24 => .encFreq24
  | .decFreq24 => .decFreq24

/-- The direction of a command; a command that takes none has `DIR = 0` (R120, R121). -/
def Instr.dir : Instr → Dir
  | .micDataSet d | .micDataChk d | .ctrEnc d | .ctrDec d => d
  | .micJrSet | .micJrChk | .micJaSet | .micJaChk | .jaEnc | .jaDec
  | .encDevaddr | .decDevaddr | .encEui | .decEui | .encNonce16 | .decNonce16
  | .encNonce24 | .decNonce24 | .encFreq24 | .decFreq24 => .up

/-- A mnemonic with a direction is a command only if the command uses the direction or it is 0 (R121, R123). -/
def cmdWellFormed (m : Mnemonic) (d : Dir) : Bool := m.usesDir || d == .up

/-- The check of R121 on a command. The type of commands already carries it (a command that takes no direction has no
place for one), so every term passes; `cmdWellFormed` is where it can fail. -/
def Instr.wellFormed (i : Instr) : Bool := cmdWellFormed i.mnemonic i.dir

/-- An offset in the window (R80, R81). -/
def BusAddr.wellFormed : BusAddr → Bool
  | .window off => off < Config.windowSize
  | .physical _ => true

/-- An access names an offset of the window, and a write of width `w` has a value below `2^(8w)` (R81). What the bus
refuses (R84) is well formed: it can be written, and it faults. -/
def HostEvent.wellFormed : HostEvent → Bool
  | .read a _ => a.wellFormed
  | .write a w v => a.wellFormed && v < 2 ^ (8 * w)
  | .reset => true
  | .powerUp => true

/-- The immediates of R127 and R128 fit their widths, a key has 16 bytes, and a run of buffer bytes lies in the buffer.
A `cmd` line takes either direction on every command: where `DIR` must be 0, `down` assembles to an illegal word
(R128). -/
def HostLine.wellFormed : HostLine → Bool
  | .sw off imm => off < Config.windowSize && imm < 2 ^ 32
  | .sh off imm => off < Config.windowSize && imm < 2 ^ 16
  | .sb off imm => off < Config.windowSize && imm < 2 ^ 8
  | .lw off | .lh off | .lb off => off < Config.windowSize
  | .reset => true
  | .cmd _ _ => true
  | .key _ bytes => bytes.length == 16
  | .buf a bytes => a + bytes.length ≤ Config.bufSize
  | .setval imm => imm < 2 ^ 64
  | .wreg _ imm => imm < 2 ^ 32

end Sys2Proof
end

