-- ==== Sys2Proof/Decode.lean ====
section
/-! DEFINITION. The command word (R120) read and written: the decoder of R123, total on every 32-bit word and rejecting
by name; the encoder from the opcode map (R121); and the exact expansions of the host program syntax (R127, R128). -/

namespace Sys2Proof

/-- Why a word selects no command (R124). Each kind raises the same `E_ILLEGAL_CMD` (R123). -/
inductive IllegalWord where
  /-- `OP` is in no row of R121. -/
  | unassignedOp
  /-- `RSV` is not 0. -/
  | reservedBits
  /-- `DIR = 1` with an opcode whose `DIR` must be 0. -/
  | dirMustBeZero
  deriving DecidableEq, Repr

/-- What a command word decodes to. -/
inductive Decoded where
  | command (i : Instr)
  | illegal (why : IllegalWord)
  deriving DecidableEq, Repr

/-- `OP = w[7:0]` (R34, R120). -/
def opField (w : Word) : BitVec 8 := w.extractLsb' 0 8

/-- `DIR = w[8]` (R34, R120). -/
def dirField (w : Word) : Dir := if w.getLsbD 8 then .down else .up

/-- `RSV = w[31:9]` (R34, R120). -/
def rsvField (w : Word) : BitVec 23 := w.extractLsb' 9 23

/-- The row of R121 an opcode selects, given the direction: the command where `DIR` is used, the bare command where it
must be 0. -/
def rowOf (op : Nat) (d : Dir) : Option Instr :=
  match op with
  | 0x01 => some (.micDataSet d)
  | 0x02 => some (.micDataChk d)
  | 0x03 => some .micJrSet
  | 0x04 => some .micJrChk
  | 0x05 => some .micJaSet
  | 0x06 => some .micJaChk
  | 0x10 => some (.ctrEnc d)
  | 0x11 => some (.ctrDec d)
  | 0x20 => some .jaEnc
  | 0x21 => some .jaDec
  | 0x30 => some .encDevaddr
  | 0x31 => some .decDevaddr
  | 0x32 => some .encEui
  | 0x33 => some .decEui
  | 0x34 => some .encNonce16
  | 0x35 => some .decNonce16
  | 0x36 => some .encNonce24
  | 0x37 => some .decNonce24
  | 0x38 => some .encFreq24
  | 0x39 => some .decFreq24
  | _ => none

/-- Decode, in the order of R123: the opcode, then the reserved bits, then the direction. -/
def decode (w : Word) : Decoded :=
  match rowOf (opField w).toNat (dirField w) with
  | none => .illegal .unassignedOp
  | some i =>
    if rsvField w ≠ 0 then .illegal .reservedBits
    else if dirField w = .down ∧ i.mnemonic.usesDir = false then .illegal .dirMustBeZero
    else .command i

/-- The opcode of a mnemonic (R121). -/
def Mnemonic.opcode : Mnemonic → BitVec 8
  | .micDataSet => 0x01
  | .micDataChk => 0x02
  | .micJrSet => 0x03
  | .micJrChk => 0x04
  | .micJaSet => 0x05
  | .micJaChk => 0x06
  | .ctrEnc => 0x10
  | .ctrDec => 0x11
  | .jaEnc => 0x20
  | .jaDec => 0x21
  | .encDevaddr => 0x30
  | .decDevaddr => 0x31
  | .encEui => 0x32
  | .decEui => 0x33
  | .encNonce16 => 0x34
  | .decNonce16 => 0x35
  | .encNonce24 => 0x36
  | .decNonce24 => 0x37
  | .encFreq24 => 0x38
  | .decFreq24 => 0x39

/-- `DIR` as a number (R120). -/
def Dir.bit : Dir → Nat
  | .up => 0
  | .down => 1

/-- `w = (d << 8) | op` (R120). -/
def cmdWord (m : Mnemonic) (d : Dir) : Word := BitVec.ofNat 32 ((d.bit <<< 8) ||| m.opcode.toNat)

/-- The command word of a command (R120, R121). -/
def encode (i : Instr) : Word := cmdWord i.mnemonic i.dir

/-- The instruction the decoder reads from a row's word of `nbits` bits; no command word is longer than 32 bits
(R125). -/
def decodeTableWord (nbits w : Nat) : Option Instr :=
  if 32 < nbits then none
  else
    match decode (BitVec.ofNat 32 (w % 2 ^ nbits)) with
    | .command i => some i
    | .illegal _ => none

/-- The offset of a register in the window (R33). -/
def Reg.offset : Reg → Nat
  | .status => 0x004
  | .ctrl => 0x008
  | .len => 0x00C
  | .devaddr => 0x010
  | .fcnt32 => 0x014
  | .fport => 0x018
  | .payoff => 0x01C
  | .paylen => 0x020
  | .foff => 0x024
  | .valLo => 0x028
  | .valHi => 0x02C
  | .mic => 0x030

/-- The offset of a key register in the window (R33, R46). -/
def KeyName.offset : KeyName → Nat
  | .nwkskey => 0x040
  | .appskey => 0x050
  | .appkey => 0x060

/-- The offset of `BUF[0]` in the window (R33, R47). -/
def bufOffset : Nat := 0x200

/-- The offset a name of the register map stands for (R127): for a range its first (R33, R46, log entry 18). -/
def WindowName.offset : WindowName → Nat
  | .cmd => 0x000
  | .reg r => r.offset
  | .key k => k.offset
  | .buf => bufOffset

/-- `sw off, v` as an event (R127). -/
def storeWord (off v : Nat) : HostEvent := .write (.window off) 4 v

/-- The value of the four bytes `bytes[4j..4j+4)`, least significant first (R11, R128). -/
def keyWordOf (bytes : List Byte) (j : Nat) : Nat :=
  (bytes.getD (4 * j) 0).toNat + 2 ^ 8 * (bytes.getD (4 * j + 1) 0).toNat
    + 2 ^ 16 * (bytes.getD (4 * j + 2) 0).toNat + 2 ^ 24 * (bytes.getD (4 * j + 3) 0).toNat

/-- `sb 0x200+a+k, bk` for each byte of the run, in order (R128). -/
def bufStores (a : Nat) : List Byte → List HostEvent
  | [] => []
  | b :: bs => .write (.window (bufOffset + a)) 1 b.toNat :: bufStores (a + 1) bs

/-- The bus accesses a line stands for, in order (R127, R128). -/
def HostLine.expand : HostLine → List HostEvent
  | .sw off imm => [storeWord off imm]
  | .sh off imm => [.write (.window off) 2 imm]
  | .sb off imm => [.write (.window off) 1 imm]
  | .lw off => [.read (.window off) 4]
  | .lh off => [.read (.window off) 2]
  | .lb off => [.read (.window off) 1]
  | .reset => [.reset]
  | .cmd m d => [storeWord 0 (cmdWord m d).toNat]
  | .key k bytes =>
    [storeWord k.offset (keyWordOf bytes 0), storeWord (k.offset + 4) (keyWordOf bytes 1),
     storeWord (k.offset + 8) (keyWordOf bytes 2), storeWord (k.offset + 12) (keyWordOf bytes 3)]
  | .buf a bytes => bufStores a bytes
  | .setval imm => [storeWord Reg.valLo.offset (imm % 2 ^ 32), storeWord Reg.valHi.offset (imm / 2 ^ 32)]
  | .wreg name imm => [storeWord name.offset imm]

end Sys2Proof
end

