-- ==== Sys2Proof/Machine/Aes.lean ====
section
/-! DEFINITION. AES-128 on one block (R160 to R167). A block is four columns of four bytes, which is the state layout of
R161; the S-boxes are the tables of R162 and R163, one row of the spec's table to a line. -/

namespace Sys2Proof.Machine

/-- One column of the AES state, and one four-byte word of the key schedule (R161, R165): row `r` is `r0` to `r3`. -/
structure Column where
  r0 : Byte
  r1 : Byte
  r2 : Byte
  r3 : Byte
  deriving DecidableEq, Repr

/-- A 16-byte block as the 4x4 state `s[r][c] = in[r + 4c]` (R161): column `c` is `c0` to `c3`. -/
structure Block where
  c0 : Column
  c1 : Column
  c2 : Column
  c3 : Column
  deriving DecidableEq, Repr

/-- The four bytes of `bytes` from index `k`; an index past the end gives 0, which no caller reaches. -/
def Column.ofBytesAt (bytes : List Byte) (k : Nat) : Column :=
  ⟨bytes.getD k 0, bytes.getD (k + 1) 0, bytes.getD (k + 2) 0, bytes.getD (k + 3) 0⟩

/-- The state of a 16-byte string (R161). -/
def Block.ofBytes (bytes : List Byte) : Block :=
  ⟨Column.ofBytesAt bytes 0, Column.ofBytesAt bytes 4, Column.ofBytesAt bytes 8, Column.ofBytesAt bytes 12⟩

/-- The bytes of a column, row 0 first. -/
def Column.toBytes (c : Column) : List Byte := [c.r0, c.r1, c.r2, c.r3]

/-- The output string `out[r + 4c] = s[r][c]` (R161). -/
def Block.toBytes (b : Block) : List Byte := b.c0.toBytes ++ b.c1.toBytes ++ b.c2.toBytes ++ b.c3.toBytes

/-- The block of sixteen zero bytes, `0x00^16`. -/
def Block.zero : Block := Block.ofBytes []

/-- Byte-wise exclusive or of two columns (R10). -/
def Column.xor (a b : Column) : Column := ⟨a.r0 ^^^ b.r0, a.r1 ^^^ b.r1, a.r2 ^^^ b.r2, a.r3 ^^^ b.r3⟩

/-- Byte-wise exclusive or of two blocks (R10); `AddRoundKey` of R164 is this, with the round key as a block. -/
def Block.xor (a b : Block) : Block := ⟨a.c0.xor b.c0, a.c1.xor b.c1, a.c2.xor b.c2, a.c3.xor b.c3⟩

/-- The same function on each byte of a column. -/
def Column.map (f : Byte → Byte) (c : Column) : Column := ⟨f c.r0, f c.r1, f c.r2, f c.r3⟩

/-- The same function on each column of a block. -/
def Block.mapColumns (f : Column → Column) (b : Block) : Block := ⟨f b.c0, f b.c1, f b.c2, f b.c3⟩

/-! ### GF(2^8) (R160) -/

/-- `xtime(a) = (a << 1) XOR (0x1B if a[7] = 1 else 0)`, mod 256. -/
def xtime (a : Byte) : Byte := (a <<< 1) ^^^ (if a.getLsbD 7 then 0x1B else 0)

/-- XOR over the set bits `i` among the low `n` bits of `b` of `xtime^i(a)`. -/
def gmulBits : Nat → Byte → Byte → Byte
  | 0, _, _ => 0
  | n + 1, a, b => (if b.getLsbD 0 then a else 0) ^^^ gmulBits n (xtime a) (b >>> 1)

/-- The product `a • b`: XOR over the set bits `i` of `b` of `xtime^i(a)`. -/
def gmul (a b : Byte) : Byte := gmulBits 8 a b

/-! ### S-boxes (R162, R163) -/

/-- Row `h` of the table of R162, its sixteen bytes from column 0 on. -/
def sboxRow : Nat → Nat
  | 0x0 => 0x637c777bf26b6fc53001672bfed7ab76
  | 0x1 => 0xca82c97dfa5947f0add4a2af9ca472c0
  | 0x2 => 0xb7fd9326363ff7cc34a5e5f171d83115
  | 0x3 => 0x04c723c31896059a071280e2eb27b275
  | 0x4 => 0x09832c1a1b6e5aa0523bd6b329e32f84
  | 0x5 => 0x53d100ed20fcb15b6acbbe394a4c58cf
  | 0x6 => 0xd0efaafb434d338545f9027f503c9fa8
  | 0x7 => 0x51a3408f929d38f5bcb6da2110fff3d2
  | 0x8 => 0xcd0c13ec5f974417c4a77e3d645d1973
  | 0x9 => 0x60814fdc222a908846eeb814de5e0bdb
  | 0xA => 0xe0323a0a4906245cc2d3ac629195e479
  | 0xB => 0xe7c8376d8dd54ea96c56f4ea657aae08
  | 0xC => 0xba78252e1ca6b4c6e8dd741f4bbd8b8a
  | 0xD => 0x703eb5664803f60e613557b986c11d9e
  | 0xE => 0xe1f8981169d98e949b1e87e9ce5528df
  | _ => 0x8ca1890dbfe6426841992d0fb054bb16

/-- Row `h` of the table of R163. -/
def invSboxRow : Nat → Nat
  | 0x0 => 0x52096ad53036a538bf40a39e81f3d7fb
  | 0x1 => 0x7ce339829b2fff87348e4344c4dee9cb
  | 0x2 => 0x547b9432a6c2233dee4c950b42fac34e
  | 0x3 => 0x082ea16628d924b2765ba2496d8bd125
  | 0x4 => 0x72f8f66486689816d4a45ccc5d65b692
  | 0x5 => 0x6c704850fdedb9da5e154657a78d9d84
  | 0x6 => 0x90d8ab008cbcd30af7e45805b8b34506
  | 0x7 => 0xd02c1e8fca3f0f02c1afbd0301138a6b
  | 0x8 => 0x3a9111414f67dcea97f2cfcef0b4e673
  | 0x9 => 0x96ac7422e7ad3585e2f937e81c75df6e
  | 0xA => 0x47f11a711d29c5896fb7620eaa18be1b
  | 0xB => 0xfc563e4bc6d279209adbc0fe78cd5af4
  | 0xC => 0x1fdda8338807c731b11210592780ec5f
  | 0xD => 0x60517fa919b54a0d2de57a9f93c99cef
  | 0xE => 0xa0e03b4dae2af5b0c8ebbb3c83539961
  | _ => 0x172b047eba77d626e169146355210c7d

/-- Entry `l` of a row, column 0 being its most significant byte. -/
def rowEntry (row l : Nat) : Byte := BitVec.ofNat 8 (row >>> (8 * (15 - l)))

/-- `SBOX(0xhl)`: row `h`, column `l` (R162). -/
def sbox (a : Byte) : Byte := rowEntry (sboxRow (a.toNat / 16)) (a.toNat % 16)

/-- `INV_SBOX(0xhl)`: row `h`, column `l` (R163). -/
def invSbox (a : Byte) : Byte := rowEntry (invSboxRow (a.toNat / 16)) (a.toNat % 16)

/-! ### Round transformations (R164) -/

/-- `SubBytes`. -/
def subBytes (b : Block) : Block := b.mapColumns (Column.map sbox)

/-- `InvSubBytes`. -/
def invSubBytes (b : Block) : Block := b.mapColumns (Column.map invSbox)

/-- `ShiftRows(s)[r][c] = s[r][(c + r) mod 4]`. -/
def shiftRows (b : Block) : Block :=
  ⟨⟨b.c0.r0, b.c1.r1, b.c2.r2, b.c3.r3⟩,
   ⟨b.c1.r0, b.c2.r1, b.c3.r2, b.c0.r3⟩,
   ⟨b.c2.r0, b.c3.r1, b.c0.r2, b.c1.r3⟩,
   ⟨b.c3.r0, b.c0.r1, b.c1.r2, b.c2.r3⟩⟩

/-- `InvShiftRows(s)[r][c] = s[r][(c - r) mod 4]`. -/
def invShiftRows (b : Block) : Block :=
  ⟨⟨b.c0.r0, b.c3.r1, b.c2.r2, b.c1.r3⟩,
   ⟨b.c1.r0, b.c0.r1, b.c3.r2, b.c2.r3⟩,
   ⟨b.c2.r0, b.c1.r1, b.c0.r2, b.c3.r3⟩,
   ⟨b.c3.r0, b.c2.r1, b.c1.r2, b.c0.r3⟩⟩

/-- One column of `MixColumns`. -/
def mixColumn (a : Column) : Column :=
  ⟨gmul 2 a.r0 ^^^ gmul 3 a.r1 ^^^ a.r2 ^^^ a.r3,
   a.r0 ^^^ gmul 2 a.r1 ^^^ gmul 3 a.r2 ^^^ a.r3,
   a.r0 ^^^ a.r1 ^^^ gmul 2 a.r2 ^^^ gmul 3 a.r3,
   gmul 3 a.r0 ^^^ a.r1 ^^^ a.r2 ^^^ gmul 2 a.r3⟩

/-- One column of `InvMixColumns`. -/
def invMixColumn (a : Column) : Column :=
  ⟨gmul 0x0e a.r0 ^^^ gmul 0x0b a.r1 ^^^ gmul 0x0d a.r2 ^^^ gmul 0x09 a.r3,
   gmul 0x09 a.r0 ^^^ gmul 0x0e a.r1 ^^^ gmul 0x0b a.r2 ^^^ gmul 0x0d a.r3,
   gmul 0x0d a.r0 ^^^ gmul 0x09 a.r1 ^^^ gmul 0x0e a.r2 ^^^ gmul 0x0b a.r3,
   gmul 0x0b a.r0 ^^^ gmul 0x0d a.r1 ^^^ gmul 0x09 a.r2 ^^^ gmul 0x0e a.r3⟩

/-- `MixColumns`. -/
def mixColumns (b : Block) : Block := b.mapColumns mixColumn

/-- `InvMixColumns`. -/
def invMixColumns (b : Block) : Block := b.mapColumns invMixColumn

/-- `AddRoundKey(s, RK)[r][c] = s[r][c] XOR RK[r + 4c]`. -/
def addRoundKey (s rk : Block) : Block := s.xor rk

/-! ### Key expansion (R165) -/

/-- `Rcon[1..10]`. -/
def rcon : Nat → Byte
  | 1 => 0x01
  | 2 => 0x02
  | 3 => 0x04
  | 4 => 0x08
  | 5 => 0x10
  | 6 => 0x20
  | 7 => 0x40
  | 8 => 0x80
  | 9 => 0x1b
  | 10 => 0x36
  | _ => 0

/-- `RotWord(a0 a1 a2 a3) = a1 a2 a3 a0`. -/
def rotWord (w : Column) : Column := ⟨w.r1, w.r2, w.r3, w.r0⟩

/-- `SubWord`: `SBOX` on each byte. -/
def subWord (w : Column) : Column := w.map sbox

/-- The four words of round key `r` from the four of round key `r - 1`: the step of R165 for `i = 4r .. 4r+3`, of which
only the first goes through `SubWord`, `RotWord` and `Rcon[r]`. -/
def nextRoundKey (rc : Byte) (k : Block) : Block :=
  let w0 := k.c0.xor ((subWord (rotWord k.c3)).xor ⟨rc, 0, 0, 0⟩)
  let w1 := k.c1.xor w0
  let w2 := k.c2.xor w1
  let w3 := k.c3.xor w2
  ⟨w0, w1, w2, w3⟩

/-- Round key `r`: `RK_r = w[4r] || w[4r+1] || w[4r+2] || w[4r+3]`. -/
def roundKey (k : Block) : Nat → Block
  | 0 => k
  | r + 1 => nextRoundKey (rcon (r + 1)) (roundKey k r)

/-! ### The cipher and the inverse cipher (R166, R167) -/

/-- The state after rounds 0 to `r` of `AES128_Enc`. -/
def encRounds (k p : Block) : Nat → Block
  | 0 => addRoundKey p (roundKey k 0)
  | r + 1 => addRoundKey (mixColumns (shiftRows (subBytes (encRounds k p r)))) (roundKey k (r + 1))

/-- `AES128_Enc(K, P)`. -/
def aesEnc (k p : Block) : Block := addRoundKey (shiftRows (subBytes (encRounds k p 9))) (roundKey k 10)

/-- The state of `AES128_Dec` after its first `n` rounds, which use round keys 9 down to `10 - n`. -/
def decRounds (k c : Block) : Nat → Block
  | 0 => addRoundKey c (roundKey k 10)
  | n + 1 => invMixColumns (addRoundKey (invSubBytes (invShiftRows (decRounds k c n))) (roundKey k (9 - n)))

/-- `AES128_Dec(K, C)`. -/
def aesDec (k c : Block) : Block := addRoundKey (invSubBytes (invShiftRows (decRounds k c 9))) (roundKey k 0)

end Sys2Proof.Machine
end

