-- ==== Sys2Proof/Machine/State.lean ====
section
/-! DEFINITION. The architectural state of R30 as plain data, three fields of the model's own, the ways a step can
stop, and the state after reset (R381). -/

namespace Sys2Proof.Machine

/-- The bytes of `BUF` written since the last reset, as (location, byte) pairs with the locations strictly rising. A
location that is not listed has not been written: it holds its `BUF_RESET` draw (R47, log entry 1). -/
abbrev Memory := List Host.Cell

/-- The error codes of R341. `crypto` is defined and never raised (R168, U8). -/
inductive ErrCode where
  | ok
  | illegalCmd
  | invalidArgument
  | sizeMismatch
  | bounds
  | state
  | crypto
  deriving DecidableEq, Repr

/-- The state of the block (R30), field by field, and the model's own `draw`, `pending` and `answer`. -/
structure State where
  /-- `STATUS.ERR`: the last command failed (R35). -/
  err : Bool
  /-- `STATUS.VALID`: the last command was a `*_CHK` that matched (R35). -/
  valid : Bool
  /-- `STATUS.ERRCODE` (R35, R341). -/
  errcode : BitVec 8
  /-- `CTRL.CIPH`: the payload region holds ciphertext (R36). -/
  ciph : Bool
  /-- `LEN`: the message length, MIC excluded (R37). -/
  len : BitVec 8
  /-- `DEVADDR`, in natural form (R38). -/
  devaddr : BitVec 32
  /-- `FCNT32` (R39). -/
  fcnt32 : BitVec 32
  /-- `FPORT` (R40). -/
  fport : BitVec 8
  /-- `PAYOFF`: where the FRMPayload starts in `BUF` (R41). -/
  payoff : BitVec 9
  /-- `PAYLEN`: the FRMPayload's length (R42). -/
  paylen : BitVec 10
  /-- `FOFF`: where the field of a codec command starts in `BUF` (R43). -/
  foff : BitVec 9
  /-- `VAL = VAL_HI:VAL_LO` (R44). -/
  val : BitVec 64
  /-- `MIC`: the last MIC a `*_SET` command computed (R45). -/
  mic : BitVec 32
  /-- `NWKSKEY`; key byte `k` is bits `[8k+7:8k]` (R46). -/
  nwkskey : BitVec 128
  /-- `APPSKEY` (R46). -/
  appskey : BitVec 128
  /-- `APPKEY` (R46). -/
  appkey : BitVec 128
  /-- `BUF` (R47). -/
  mem : Memory
  /-- The model's own: the number of the `BUF_RESET` draw in force (log entry 1). -/
  draw : Nat
  /-- The model's own: what the host and the platform do next, first one first (R17, R92, log entry 2). -/
  pending : List HostEvent
  /-- The model's own: the value the host got back from its last access, if that was a read (R97, log entry 3). -/
  answer : Option Word
  deriving DecidableEq, Repr

/-- Why a step stops with a fault. -/
inductive Fault where
  /-- `BusError` (R84): the bus refuses one host access. `Machine.hostRead` and `Machine.hostWrite` raise it. Safe: R84
  makes it a fault of the host's step that changes no state, and a run that stops there proves less than a host that
  goes on could. -/
  | busError
  deriving DecidableEq, Repr

/-- Why a step is refused. -/
inductive Refusal where
  /-- The instruction has no meaning in the model yet; only an arm of `Machine.exec` may answer so. Safe. -/
  | notModelled (mnemonic : String)
  deriving DecidableEq, Repr

/-- The state right after the first reset (R381): every register and key 0, `BUF` at its draw, nothing pending. -/
def State.reset : State where
  err := false
  valid := false
  errcode := 0
  ciph := false
  len := 0
  devaddr := 0
  fcnt32 := 0
  fport := 0
  payoff := 0
  paylen := 0
  foff := 0
  val := 0
  mic := 0
  nwkskey := 0
  appskey := 0
  appkey := 0
  mem := []
  draw := 0
  pending := []
  answer := none

end Sys2Proof.Machine
end

