-- ==== Sys2Proof/Machine/Ops.lean ====
section
/-! DEFINITION. The named operations over the buffer and the registers: reading and writing `BUF`, bytes of a register,
the two ways a command ends (R340, R342), reset and power-up. -/

namespace Sys2Proof.Machine

/-! ### The buffer -/

/-- The byte written at a location since the last reset, if there is one. -/
def Memory.find : Memory → Nat → Option Byte
  | [], _ => none
  | (k, c) :: m, a => if k = a then some c else Memory.find m a

/-- Write one byte, keeping the locations strictly rising. -/
def Memory.insert : Memory → Nat → Byte → Memory
  | [], a, b => [(a, b)]
  | (k, c) :: m, a, b =>
    if a < k then (a, b) :: (k, c) :: m
    else if a = k then (a, b) :: m
    else (k, c) :: Memory.insert m a b

/-- Write a byte string at consecutive locations from `a`. -/
def Memory.store : Memory → Nat → List Byte → Memory
  | m, _, [] => m
  | m, a, b :: bs => Memory.store (Memory.insert m a b) (a + 1) bs

/-- The canonical form: the locations rise strictly and lie in `BUF`. -/
abbrev Memory.wf (m : Memory) : Prop :=
  m.Pairwise (fun x y => x.1 < y.1) ∧ ∀ c ∈ m, c.1 < Config.bufSize

/-- `BUF[a]` (R47): the byte written last, or the draw of the last reset. -/
def State.bufByte (s : State) (a : Nat) : Byte :=
  match Memory.find s.mem a with
  | some b => b
  | none => Config.bufReset s.draw a

/-- `MemRead(a, n)` (R14). -/
def State.memRead (s : State) (a n : Nat) : List Byte := (List.range n).map fun k => s.bufByte (a + k)

/-- `MemWrite(a, |bytes|, bytes)` (R14). -/
def State.memWrite (s : State) (a : Nat) (bytes : List Byte) : State :=
  { s with mem := Memory.store s.mem a bytes }

/-! ### Bytes of a register -/

/-- Byte `j` of a register: bits `[8j+7:8j]` (R82). -/
def byteOf {n : Nat} (v : BitVec n) (j : Nat) : Byte := v.extractLsb' (8 * j) 8

/-- A register with its byte `j` replaced (R82, R83). -/
def withByte {n : Nat} (v : BitVec n) (j : Nat) (b : Byte) : BitVec n :=
  (v &&& ~~~((255#8).setWidth n <<< (8 * j))) ||| (b.setWidth n <<< (8 * j))

/-! ### Registers a command writes -/

/-- Write all three fields of `STATUS` (R35). -/
def State.setStatus (s : State) (err valid : Bool) (code : BitVec 8) : State :=
  { s with err := err, valid := valid, errcode := code }

/-- Write `VAL` (R44). -/
def State.setVal (s : State) (v : BitVec 64) : State := { s with val := v }

/-- Write `MIC` (R45). -/
def State.setMic (s : State) (v : BitVec 32) : State := { s with mic := v }

/-! ### How a command ends -/

/-- The numbers of R341. -/
def ErrCode.code : ErrCode → BitVec 8
  | .ok => 0x00
  | .illegalCmd => 0x01
  | .invalidArgument => 0x02
  | .sizeMismatch => 0x03
  | .bounds => 0x04
  | .state => 0x05
  | .crypto => 0x06

/-- What a command's pseudocode comes to: its success update and the comparison result of a check, or a `raise`. Every
check comes before the first write (R15), so a raise carries no state. -/
inductive Result where
  | done (t : State) (valid : Bool)
  | raised (e : ErrCode)
  deriving DecidableEq, Repr

/-- The error path (R342), the one operation by which a command fails: `STATUS` and nothing else. The block has no
other exception entry (R348) and no return from one (R349). -/
def State.raise (s : State) (e : ErrCode) : State := s.setStatus true false e.code

/-- The success path (R340): the command's own writes, then `STATUS`. -/
def State.succeed (t : State) (valid : Bool) : State := t.setStatus false valid ErrCode.ok.code

/-- A command as R343 describes it: the success update of its rule, or the `STATUS`-only update. -/
def finish (s : State) (r : Result) : Host.Outcome State Fault Refusal :=
  match r with
  | .done t valid => .next (t.succeed valid)
  | .raised e => .next (s.raise e)

/-! ### Events -/

/-- The next event leaves the queue, and the answer of the access before it is gone. -/
def State.consume (s : State) : State := { s with pending := s.pending.tail, answer := none }

/-- A read gives its value back to the host (R97). -/
def State.give (s : State) (v : Word) : State := { s with answer := some v }

/-- The platform reset (R380, R381): the reset state, with a new draw of `BUF_RESET`. What the host does next is not
the block's, so it stays. -/
def State.platformReset (s : State) : State :=
  { State.reset with draw := s.draw + 1, pending := s.pending }

/-- Power returns without a reset (R357, U13): any value in every register, key and `BUF` byte. -/
def State.powerUp (s : State) : State where
  err := (Config.powerUp (s.draw + 1) 0).testBit 0
  valid := (Config.powerUp (s.draw + 1) 1).testBit 0
  errcode := BitVec.ofNat 8 (Config.powerUp (s.draw + 1) 2)
  ciph := (Config.powerUp (s.draw + 1) 3).testBit 0
  len := BitVec.ofNat 8 (Config.powerUp (s.draw + 1) 4)
  devaddr := BitVec.ofNat 32 (Config.powerUp (s.draw + 1) 5)
  fcnt32 := BitVec.ofNat 32 (Config.powerUp (s.draw + 1) 6)
  fport := BitVec.ofNat 8 (Config.powerUp (s.draw + 1) 7)
  payoff := BitVec.ofNat 9 (Config.powerUp (s.draw + 1) 8)
  paylen := BitVec.ofNat 10 (Config.powerUp (s.draw + 1) 9)
  foff := BitVec.ofNat 9 (Config.powerUp (s.draw + 1) 10)
  val := BitVec.ofNat 64 (Config.powerUp (s.draw + 1) 11)
  mic := BitVec.ofNat 32 (Config.powerUp (s.draw + 1) 12)
  nwkskey := BitVec.ofNat 128 (Config.powerUp (s.draw + 1) 13)
  appskey := BitVec.ofNat 128 (Config.powerUp (s.draw + 1) 14)
  appkey := BitVec.ofNat 128 (Config.powerUp (s.draw + 1) 15)
  mem := []
  draw := s.draw + 1
  pending := s.pending
  answer := none

end Sys2Proof.Machine
end

