-- ==== Sys2Proof/Machine/Operands.lean ====
section
/-! DEFINITION. The forms a command's operands take: integers as byte strings (R11), keys as AES blocks (R46, R161),
the direction byte (R122), and the checks on lengths and ranges that several commands share. -/

namespace Sys2Proof.Machine

/-- `le_bytes_n(v)`: `n` bytes, byte `k` being `v[8k+7:8k]` (R11). -/
def leBytes : Nat → Nat → List Byte
  | 0, _ => []
  | n + 1, v => BitVec.ofNat 8 v :: leBytes n (v / 256)

/-- `le_value(s)`: bits `[8k+7:8k]` are `s[k]` (R11). -/
def leValue : List Byte → Nat
  | [] => 0
  | b :: bs => b.toNat + 256 * leValue bs

/-- `be_value(s)`: the integer whose most significant byte is `s[0]` (R11). -/
def beValue (bytes : List Byte) : Nat := leValue bytes.reverse

/-- `be_bytes_n(v)`, the inverse of `beValue` on `n`-byte strings (R11). -/
def beBytes (n v : Nat) : List Byte := (leBytes n v).reverse

/-- A key register as a 16-byte string in index order (R46, R161). -/
def keyBytes (k : BitVec 128) : List Byte := leBytes 16 k.toNat

/-- A key register as the block AES takes (R161). -/
def keyBlock (k : BitVec 128) : Block := Block.ofBytes (keyBytes k)

/-- `byte(DIR)` (R122). -/
def dirByte (d : Dir) : Byte := BitVec.ofNat 8 d.bit

/-- Byte-wise exclusive or of two strings of one length (R10). -/
def xorBytes (s t : List Byte) : List Byte := List.zipWith (· ^^^ ·) s t

/-- `ceil(n / 16)`, the number of 16-byte blocks that hold `n` bytes (R171, R281). -/
def blockCount (n : Nat) : Nat := (n + 15) / 16

/-- The key of the FRMPayload cipher: `APPSKEY` when `FPORT >= 1`, `NWKSKEY` when `FPORT = 0` (R282). -/
def State.payloadKey (s : State) : BitVec 128 := if 1 ≤ s.fport.toNat then s.appskey else s.nwkskey

/-- `LEN` is the length of a JoinRequest message (R246). -/
def State.joinRequestSize (s : State) : Bool := s.len == 19

/-- `LEN` is the length of a JoinAccept message, without or with a CFList (R249). -/
def State.joinAcceptSize (s : State) : Bool := s.len == 13 || s.len == 29

/-- The range of `n` bytes from `a` passes the end of `BUF` (R14). -/
def pastBuffer (a n : Nat) : Bool := Config.bufSize < a + n

end Sys2Proof.Machine
end

