-- ==== Sys2Proof/Machine/Codec.lean ====
section
/-! DEFINITION. The fixed-width field codec (41_field_codec.md). -/

namespace Sys2Proof.Machine

/-- Write the integer `u` as an `n`-byte field at `FOFF`: the bounds check, then the value check, then the write
(R201). -/
def encodeField (n u : Nat) (s : State) : Result :=
  if pastBuffer s.foff.toNat n then .raised .bounds
  else if 2 ^ (8 * n) ≤ u then .raised .invalidArgument
  else .done (s.memWrite s.foff.toNat (leBytes n u)) false

/-- Read the `n`-byte field at `FOFF` into all 64 bits of `VAL`, scaled by `unit` (R201, R202). -/
def decodeField (n unit : Nat) (s : State) : Result :=
  if pastBuffer s.foff.toNat n then .raised .bounds
  else .done (s.setVal (BitVec.ofNat 64 (unit * leValue (s.memRead s.foff.toNat n)))) false

/-- `ENC_DEVADDR` (R203). -/
def execEncDevaddr (s : State) : Host.Outcome State Fault Refusal := finish s (encodeField 4 s.val.toNat s)

/-- `DEC_DEVADDR` (R204). -/
def execDecDevaddr (s : State) : Host.Outcome State Fault Refusal := finish s (decodeField 4 1 s)

/-- `ENC_EUI` (R205). Every 64-bit `VAL` fits, so the value check of `encodeField` never fails here. -/
def execEncEui (s : State) : Host.Outcome State Fault Refusal := finish s (encodeField 8 s.val.toNat s)

/-- `DEC_EUI` (R206). -/
def execDecEui (s : State) : Host.Outcome State Fault Refusal := finish s (decodeField 8 1 s)

/-- `ENC_NONCE16` (R207). -/
def execEncNonce16 (s : State) : Host.Outcome State Fault Refusal := finish s (encodeField 2 s.val.toNat s)

/-- `DEC_NONCE16` (R208). -/
def execDecNonce16 (s : State) : Host.Outcome State Fault Refusal := finish s (decodeField 2 1 s)

/-- `ENC_NONCE24` (R209). -/
def execEncNonce24 (s : State) : Host.Outcome State Fault Refusal := finish s (encodeField 3 s.val.toNat s)

/-- `DEC_NONCE24` (R210). -/
def execDecNonce24 (s : State) : Host.Outcome State Fault Refusal := finish s (decodeField 3 1 s)

/-- `ENC_FREQ24` (R211): the field is the number of whole 100 Hz units in `VAL`, and the 24-bit bound is on that number
(90_conflicts.md C2). -/
def execEncFreq24 (s : State) : Host.Outcome State Fault Refusal := finish s (encodeField 3 (s.val.toNat / 100) s)

/-- `DEC_FREQ24` (R212). -/
def execDecFreq24 (s : State) : Host.Outcome State Fault Refusal := finish s (decodeField 3 100 s)

end Sys2Proof.Machine
end

