-- ==== Sys2Proof/Machine/Flags.lean ====
section
/-! DEFINITION. The three flags of R50 and the words that show them: `STATUS` (R35), `CTRL` (R36) and the comparison
behind `STATUS.VALID` (R242). -/

namespace Sys2Proof.Machine

/-- `STATUS` as a 32-bit value: `ERR` in bit 0, `VALID` in bit 1, `ERRCODE` in bits 15 to 8, the rest 0 (R35). -/
def State.statusWord (s : State) : Word :=
  (if s.err then 1 else 0) ||| (if s.valid then 2 else 0) ||| (s.errcode.setWidth 32 <<< 8)

/-- `CTRL` as a 32-bit value: `CIPH` in bit 0, the rest 0 (R36). -/
def State.ctrlWord (s : State) : Word := if s.ciph then 1 else 0

/-- Write `CTRL.CIPH` (R36, R50). -/
def State.setCiph (s : State) (b : Bool) : State := { s with ciph := b }

/-- The MIC comparison (R242, D33): the AND of the four byte equalities, every byte compared whatever the first
difference. -/
def ctEqual (x y : List Byte) : Bool :=
  (List.range 4).foldl (fun acc k => acc && x.getD k 0 == y.getD k 0) true

end Sys2Proof.Machine
end

