-- ==== Sys2Proof/Machine/Ctr.lean ====
section
/-! DEFINITION. The FRMPayload cipher (43_frmpayload_ctr.md). -/

namespace Sys2Proof.Machine

/-- `byte(i)` of a block index (R280), exact for every index a command uses (R286). R280 has no byte for an index from 256
on and no wrap may be assumed (N18): a free value (log entry 19). -/
def indexByte (i : Nat) : Byte := if i < 256 then BitVec.ofNat 8 i else Config.wideIndex i

/-- The counter block `Ai(d, a, f, i)` (R280). -/
def counterBlock (d : Dir) (a f : Word) (i : Nat) : List Byte :=
  [0x01, 0x00, 0x00, 0x00, 0x00, dirByte d] ++ leBytes 4 a.toNat ++ leBytes 4 f.toNat ++ [0x00, indexByte i]

/-- Block `i` of the keystream, `AES128_Enc(K, Ai(d, a, f, i))` (R281). -/
def keystreamBlock (k : Block) (d : Dir) (a f : Word) (i : Nat) : Block :=
  aesEnc k (Block.ofBytes (counterBlock d a f i))

/-- The first `m` blocks of the keystream, one after another from `i = 1` (R281). -/
def keystream (k : Block) (d : Dir) (a f : Word) (m : Nat) : List Byte :=
  (List.range m).flatMap fun j => (keystreamBlock k d a f (j + 1)).toBytes

/-- `CTRX(K, d, a, f, P) = P XOR take(S, n)` (R281). -/
def ctrx (k : Block) (d : Dir) (a f : Word) (p : List Byte) : List Byte :=
  xorBytes p ((keystream k d a f (blockCount p.length)).take p.length)

/-- `CTRX` on the FRMPayload range, in place, and the flag after it (R283, R284). -/
def State.cipherPayload (s : State) (d : Dir) (ciph : Bool) : State :=
  (s.memWrite s.payoff.toNat
    (ctrx (keyBlock s.payloadKey) d s.devaddr s.fcnt32 (s.memRead s.payoff.toNat s.paylen.toNat))).setCiph ciph

/-- `CTR_ENC` (R283). -/
def execCtrEnc (d : Dir) (s : State) : Host.Outcome State Fault Refusal :=
  finish s
    (if pastBuffer s.payoff.toNat s.paylen.toNat then .raised .bounds
    else if s.ciph then .raised .state
    else .done (s.cipherPayload d true) false)

/-- `CTR_DEC` (R284). -/
def execCtrDec (d : Dir) (s : State) : Host.Outcome State Fault Refusal :=
  finish s
    (if pastBuffer s.payoff.toNat s.paylen.toNat then .raised .bounds
    else if s.ciph then .done (s.cipherPayload d false) false
    else .raised .state)

end Sys2Proof.Machine
end

