-- ==== Sys2Proof/Machine/JoinAccept.lean ====
section
/-! DEFINITION. The JoinAccept cipher (44_joinaccept_ecb.md). -/

namespace Sys2Proof.Machine

/-- A block function on each of `m` consecutive 16-byte blocks of a string, independently (R311). -/
def ecb (f : Block → Block) : Nat → List Byte → List Byte
  | 0, _ => []
  | m + 1, x => (f (Block.ofBytes (x.take 16))).toBytes ++ ecb f m (x.drop 16)

/-- A block function over the region `BUF[1..LEN+4)`, in place, and the flag after it (R310, R312, R313). -/
def State.cipherJoinAccept (s : State) (f : Block → Block) (ciph : Bool) : State :=
  (s.memWrite 1
    (ecb f (blockCount (s.len.toNat + 3)) (s.memRead 1 (s.len.toNat + 3)))).setCiph ciph

/-- `JA_ENC` (R312): the AES decrypt direction (R315). -/
def execJaEnc (s : State) : Host.Outcome State Fault Refusal :=
  finish s
    (if s.joinAcceptSize then
      if s.ciph then .raised .state
      else .done (s.cipherJoinAccept (aesDec (keyBlock s.appkey)) true) false
    else .raised .sizeMismatch)

/-- `JA_DEC` (R313): the AES encrypt direction. -/
def execJaDec (s : State) : Host.Outcome State Fault Refusal :=
  finish s
    (if s.joinAcceptSize then
      if s.ciph then .done (s.cipherJoinAccept (aesEnc (keyBlock s.appkey)) false) false
      else .raised .state
    else .raised .sizeMismatch)

end Sys2Proof.Machine
end

