-- ==== Sys2Proof/Machine/Cmac.lean ====
section
/-! DEFINITION. AES-CMAC (R169 to R172). -/

namespace Sys2Proof.Machine

/-- `dbl(X)`: doubling in GF(2^128) (R169). -/
def dbl (x : Block) : Block :=
  Block.ofBytes (beBytes 16
    (((beValue x.toBytes <<< 1) % 2 ^ 128) ^^^ (if x.c0.r0.getLsbD 7 then 0x87 else 0)))

/-- `L = AES128_Enc(K, 0x00^16)` (R170). -/
def cmacL (k : Block) : Block := aesEnc k Block.zero

/-- `K1 = dbl(L)` (R170). -/
def cmacK1 (k : Block) : Block := dbl (cmacL k)

/-- `K2 = dbl(K1)` (R170). -/
def cmacK2 (k : Block) : Block := dbl (cmacK1 k)

/-- The number `n` of blocks, at least one (R171). -/
def cmacBlocks (m : List Byte) : Nat := if m.length = 0 then 1 else blockCount m.length

/-- The last block is complete (R171). -/
def cmacComplete (m : List Byte) : Bool := m.length != 0 && m.length % 16 == 0

/-- `last = M[16(n-1) .. |M|)` (R171). -/
def cmacTail (m : List Byte) : List Byte := m.drop (16 * (cmacBlocks m - 1))

/-- `M_last`: the last block with `K1`, or padded and with `K2` (R171). -/
def cmacLast (k : Block) (m : List Byte) : Block :=
  if cmacComplete m then (Block.ofBytes (cmacTail m)).xor (cmacK1 k)
  else
    (Block.ofBytes (cmacTail m ++ [0x80] ++ List.replicate (15 - (cmacTail m).length) 0)).xor (cmacK2 k)

/-- The chaining value `X` after the first `i` full blocks (R171). -/
def cmacChain (k : Block) (m : List Byte) : Nat → Block
  | 0 => Block.zero
  | i + 1 => aesEnc k ((cmacChain k m i).xor (Block.ofBytes ((m.drop (16 * i)).take 16)))

/-- `AES_CMAC(K, M)` (R171). -/
def aesCmac (k : Block) (m : List Byte) : Block :=
  aesEnc k ((cmacChain k m (cmacBlocks m - 1)).xor (cmacLast k m))

/-- `take(AES_CMAC(K, M), 4)`, in tag order (R172). -/
def micOf (k : Block) (m : List Byte) : List Byte := (aesCmac k m).toBytes.take 4

end Sys2Proof.Machine
end

