-- ==== Sys2Proof/Machine/Mic.lean ====
section
/-! DEFINITION. The MIC commands (42_mic.md). A `*_SET` places the MIC after the message; a `*_CHK` only compares. -/

namespace Sys2Proof.Machine

/-- `B0(d, a, f, n)` (R240). -/
def b0 (d : Dir) (a f : Word) (n : BitVec 8) : List Byte :=
  [0x49, 0x00, 0x00, 0x00, 0x00, dirByte d] ++ leBytes 4 a.toNat ++ leBytes 4 f.toNat ++ [0x00, n]

/-- `MICDATA(d)` (R241). -/
def State.dataMic (s : State) (d : Dir) : List Byte :=
  micOf (keyBlock s.nwkskey) (b0 d s.devaddr s.fcnt32 s.len ++ s.memRead 0 s.len.toNat)

/-- The MIC of a join frame of `n` message bytes: no B0 and no direction (R246, R249). -/
def State.joinMic (s : State) (n : Nat) : List Byte := micOf (keyBlock s.appkey) (s.memRead 0 n)

/-- `MemWrite(n, 4, mic); MIC <- le_value(mic)`, the two writes of every `*_SET` (R244, R247, R250). -/
def State.placeMic (s : State) (n : Nat) (mic : List Byte) : State :=
  (s.memWrite n mic).setMic (BitVec.ofNat 32 (leValue mic))

/-- The transmitted MIC after `n` message bytes equals `mic` (R242). -/
def State.micMatches (s : State) (n : Nat) (mic : List Byte) : Bool := ctEqual mic (s.memRead n 4)

/-- `MIC_DATA_SET` (R244). -/
def execMicDataSet (d : Dir) (s : State) : Host.Outcome State Fault Refusal :=
  finish s (.done (s.placeMic s.len.toNat (s.dataMic d)) false)

/-- `MIC_DATA_CHK` (R245). -/
def execMicDataChk (d : Dir) (s : State) : Host.Outcome State Fault Refusal :=
  finish s (.done s (s.micMatches s.len.toNat (s.dataMic d)))

/-- `MIC_JR_SET` (R247). -/
def execMicJrSet (s : State) : Host.Outcome State Fault Refusal :=
  finish s (if s.joinRequestSize then .done (s.placeMic 19 (s.joinMic 19)) false else .raised .sizeMismatch)

/-- `MIC_JR_CHK` (R248). -/
def execMicJrChk (s : State) : Host.Outcome State Fault Refusal :=
  finish s (if s.joinRequestSize then .done s (s.micMatches 19 (s.joinMic 19)) else .raised .sizeMismatch)

/-- `MIC_JA_SET` (R250). -/
def execMicJaSet (s : State) : Host.Outcome State Fault Refusal :=
  finish s
    (if s.joinAcceptSize then
      if s.ciph then .raised .state
      else .done (s.placeMic s.len.toNat (s.joinMic s.len.toNat)) false
    else .raised .sizeMismatch)

/-- `MIC_JA_CHK` (R251): on a frame still encrypted the result is false, not an error. -/
def execMicJaChk (s : State) : Host.Outcome State Fault Refusal :=
  finish s
    (if s.joinAcceptSize then
      if s.ciph then .done s false
      else .done s (s.micMatches s.len.toNat (s.joinMic s.len.toNat))
    else .raised .sizeMismatch)

end Sys2Proof.Machine
end

