-- ==== Sys2Proof/Machine/Dispatch.lean ====
section
/-! DEFINITION. One arm for each command: its meaning. -/

namespace Sys2Proof.Machine

def exec (i : Instr) (s : State) : Host.Outcome State Fault Refusal :=
  match i with
  | .micDataSet d => Sys2Proof.Machine.execMicDataSet d s
  | .micDataChk d => Sys2Proof.Machine.execMicDataChk d s
  | .micJrSet => Sys2Proof.Machine.execMicJrSet s
  | .micJrChk => Sys2Proof.Machine.execMicJrChk s
  | .micJaSet => Sys2Proof.Machine.execMicJaSet s
  | .micJaChk => Sys2Proof.Machine.execMicJaChk s
  | .ctrEnc d => Sys2Proof.Machine.execCtrEnc d s
  | .ctrDec d => Sys2Proof.Machine.execCtrDec d s
  | .jaEnc => Sys2Proof.Machine.execJaEnc s
  | .jaDec => Sys2Proof.Machine.execJaDec s
  | .encDevaddr => Sys2Proof.Machine.execEncDevaddr s
  | .decDevaddr => Sys2Proof.Machine.execDecDevaddr s
  | .encEui => Sys2Proof.Machine.execEncEui s
  | .decEui => Sys2Proof.Machine.execDecEui s
  | .encNonce16 => Sys2Proof.Machine.execEncNonce16 s
  | .decNonce16 => Sys2Proof.Machine.execDecNonce16 s
  | .encNonce24 => Sys2Proof.Machine.execEncNonce24 s
  | .decNonce24 => Sys2Proof.Machine.execDecNonce24 s
  | .encFreq24 => Sys2Proof.Machine.execEncFreq24 s
  | .decFreq24 => Sys2Proof.Machine.execDecFreq24 s

end Sys2Proof.Machine
end

