-- ==== Sys2Proof/Machine/Window.lean ====
section
/-! DEFINITION. The register window as the host sees it (R33, R81 to R84): where each offset lies, what a byte of it
reads as, what a write to a byte of it does, and which accesses the bus accepts. -/

namespace Sys2Proof.Machine

/-- What one byte of the window belongs to (R33). -/
inductive Location where
  /-- Byte `j` of `CMD`. -/
  | cmd (j : Nat)
  /-- Byte `j` of a register. -/
  | reg (r : Reg) (j : Nat)
  /-- Byte `j` of a key. -/
  | key (k : KeyName) (j : Nat)
  /-- `BUF[a]`. -/
  | buf (a : Nat)
  /-- A reserved offset, or one past the window. -/
  | reserved
  deriving DecidableEq, Repr

/-- The register of the `n`-th word of the window, from 0 at `CMD` (R33). -/
def regAt : Nat → Option Reg
  | 1 => some .status
  | 2 => some .ctrl
  | 3 => some .len
  | 4 => some .devaddr
  | 5 => some .fcnt32
  | 6 => some .fport
  | 7 => some .payoff
  | 8 => some .paylen
  | 9 => some .foff
  | 10 => some .valLo
  | 11 => some .valHi
  | 12 => some .mic
  | _ => none

/-- The map of R33. -/
def locate (off : Nat) : Location :=
  if off < 0x004 then .cmd off
  else if off < 0x034 then
    match regAt (off / 4) with
    | some r => .reg r (off % 4)
    | none => .reserved
  else if off < 0x040 then .reserved
  else if off < 0x050 then .key .nwkskey (off - 0x040)
  else if off < 0x060 then .key .appskey (off - 0x050)
  else if off < 0x070 then .key .appkey (off - 0x060)
  else if off < 0x200 then .reserved
  else if off < 0x400 then .buf (off - 0x200)
  else .reserved

/-- A register as the 32-bit value the host sees, its undefined bits 0 (R35 to R45). -/
def State.getReg (s : State) : Reg → Word
  | .status => s.statusWord
  | .ctrl => s.ctrlWord
  | .len => s.len.setWidth 32
  | .devaddr => s.devaddr
  | .fcnt32 => s.fcnt32
  | .fport => s.fport.setWidth 32
  | .payoff => s.payoff.setWidth 32
  | .paylen => s.paylen.setWidth 32
  | .foff => s.foff.setWidth 32
  | .valLo => s.val.extractLsb' 0 32
  | .valHi => s.val.extractLsb' 32 32
  | .mic => s.mic

/-- A host write of a whole register: its defined bits take the value, and `STATUS` and `MIC` ignore it (R33, R83). -/
def State.setReg (s : State) (r : Reg) (v : Word) : State :=
  match r with
  | .status => s
  | .ctrl => s.setCiph (v.getLsbD 0)
  | .len => { s with len := v.setWidth 8 }
  | .devaddr => { s with devaddr := v }
  | .fcnt32 => { s with fcnt32 := v }
  | .fport => { s with fport := v.setWidth 8 }
  | .payoff => { s with payoff := v.setWidth 9 }
  | .paylen => { s with paylen := v.setWidth 10 }
  | .foff => { s with foff := v.setWidth 9 }
  | .valLo => s.setVal (s.val.extractLsb' 32 32 ++ v)
  | .valHi => s.setVal (v ++ s.val.extractLsb' 0 32)
  | .mic => s

/-- A key register (R46). -/
def State.getKey (s : State) : KeyName → BitVec 128
  | .nwkskey => s.nwkskey
  | .appskey => s.appskey
  | .appkey => s.appkey

/-- Replace a key register (R46). -/
def State.setKey (s : State) (k : KeyName) (v : BitVec 128) : State :=
  match k with
  | .nwkskey => { s with nwkskey := v }
  | .appskey => { s with appskey := v }
  | .appkey => { s with appkey := v }

/-- What an accepted read of one byte returns (R83): zero for `CMD` and for every key byte. -/
def State.readByte (s : State) (off : Nat) : Byte :=
  match locate off with
  | .cmd _ => 0
  | .reg r j => byteOf (s.getReg r) j
  | .key _ _ => 0
  | .buf a => s.bufByte a
  | .reserved => 0

/-- What an accepted write of one byte does (R83). A write to `CMD` does not come here: it starts a command (R85). -/
def State.writeByte (s : State) (off : Nat) (b : Byte) : State :=
  match locate off with
  | .cmd _ => s
  | .reg r j => s.setReg r (withByte (s.getReg r) j b)
  | .key k j => s.setKey k (withByte (s.getKey k) j b)
  | .buf a => s.memWrite a [b]
  | .reserved => s

/-- The bytes of an accepted write from offset `off` on, as one event (R82, R86). -/
def State.writeBytes (s : State) (off : Nat) : List Byte → State
  | [] => s
  | b :: bs => State.writeBytes (s.writeByte off b) (off + 1) bs

/-- The value of an accepted read of width `w` (R82). -/
def State.readValue (s : State) (off w : Nat) : Word :=
  BitVec.ofNat 32 (leValue ((List.range w).map fun b => s.readByte (off + b)))

/-- An offset of a defined range of R33. -/
def defined (off : Nat) : Bool := locate off != .reserved

/-- The bus accepts an access of width `w` at `off`: the three conditions of R81. -/
def accepts (off w : Nat) : Bool :=
  (w == 1 || w == 2 || w == 4) && off % w == 0 && (List.range w).all fun b => defined (off + b)

/-- The bus accepts a write of width `w` at `off`: `CMD` takes only a 4-byte write (R83, R84). -/
def acceptsWrite (off w : Nat) : Bool := accepts off w && (w == 4 || 4 ≤ off)

/-- The offset in the window of a bus address; a physical address outside the window is not the block's (R90). -/
def offsetOf : BusAddr → Option Nat
  | .window off => some off
  | .physical addr =>
    if Config.base ≤ addr ∧ addr < Config.base + Config.windowSize then some (addr - Config.base) else none

end Sys2Proof.Machine
end

