-- ==== Sys2Proof/Machine/HostPort.lean ====
section
/-! DEFINITION. What one event does to the block (R85, R97): a host read, a host write, the command a `CMD` write
starts, the platform reset, and power coming back. -/

namespace Sys2Proof.Machine

/-- The command word `w` written to `CMD` (R85, R123): decode, then execution; an illegal word takes the error path. -/
def runCommand (w : Word) (s : State) : Host.Outcome State Fault Refusal :=
  match decode w with
  | .command i => exec i s
  | .illegal _ => .next (s.raise .illegalCmd)

/-- `HostRead(off, w)` (R81 to R84). -/
def hostRead (off w : Nat) (s : State) : Host.Outcome State Fault Refusal :=
  if accepts off w then .next (s.give (s.readValue off w)) else .fault .busError

/-- `HostWrite(off, w, v)` (R81 to R85). The one accepted write that touches `CMD` is the 4-byte write at offset 0. -/
def hostWrite (off w v : Nat) (s : State) : Host.Outcome State Fault Refusal :=
  if acceptsWrite off w then
    if off = 0 then runCommand (BitVec.ofNat 32 v) s
    else .next (s.writeBytes off (leBytes w v))
  else .fault .busError

/-- One event. An access to a physical address outside the window does not reach the block (R90). -/
def runEvent (e : HostEvent) (s : State) : Host.Outcome State Fault Refusal :=
  match e with
  | .read a w =>
    match offsetOf a with
    | some off => hostRead off w s
    | none => .next s
  | .write a w v =>
    match offsetOf a with
    | some off => hostWrite off w v s
    | none => .next s
  | .reset => .next s.platformReset
  | .powerUp => .next s.powerUp

/-- The state in which a host that survives a `BusError` goes on: the refused access has gone, and the block is as it
was (R84, R346). The step itself answers the fault (R84, R359). -/
def State.afterBusError (s : State) : State := s.consume

end Sys2Proof.Machine
end

