-- ==== Sys2Proof/Machine/Step.lean ====
section
/-! DEFINITION. One step: the next thing the host or the platform does (R17). -/

namespace Sys2Proof.Machine

/-- The block has no step of its own (R17): a step runs the first pending event, and with none pending the block is
idle (R380). -/
def step (s : State) : Host.Outcome State Fault Refusal :=
  match s.pending with
  | [] => .next s
  | e :: _ => runEvent e s.consume

/-- The state in which the host's next access is the 4-byte write of a table row's word to `CMD` (R34, R85). The block
fetches nothing (R32): a command is run by writing it. -/
def State.withFetchWord (s : State) (nbits w : Nat) : State :=
  { s with pending := .write (.window 0) 4 (w % 2 ^ nbits) :: s.pending }

end Sys2Proof.Machine
end

