-- ==== Sys2Proof/Safety.lean ====
section
/-! DEFINITION. What the claims are stated in: the invariant of the block, the ways a command ends, what each command
may write (R126), and the conditions of each error (R344). -/

namespace Sys2Proof.Machine

/-- `STATUS` holds what a command or reset can leave in it (R35, R341, U7): no error and code 0, or an error, `VALID`
clear, and one of the codes 1 to 5. -/
abbrev State.statusLegal (s : State) : Prop :=
  (s.err = false ∧ s.errcode = 0) ∨
  (s.err = true ∧ s.valid = false ∧ 1 ≤ s.errcode.toNat ∧ s.errcode.toNat ≤ 5)

/-- The invariant of the block while it keeps its power: the buffer is in its canonical form, `STATUS` is legal, and no
power-up without a reset is to come (U13 lets anything stand in `STATUS` after one). -/
abbrev State.Inv (s : State) : Prop :=
  Memory.wf s.mem ∧ s.statusLegal ∧ HostEvent.powerUp ∉ s.pending

/-- The command ends on its error path: `STATUS` has the code and nothing else changes (R342). -/
def FailsWith (i : Instr) (s : State) (code : BitVec 8) : Prop :=
  exec i s = .next { s with err := true, valid := false, errcode := code }

/-- The command ends without error and writes `STATUS` only: a check (R245, R248, R251). -/
def ChecksTo (i : Instr) (s : State) (valid : Bool) : Prop :=
  exec i s = .next { s with err := false, valid := valid, errcode := 0 }

/-- Every byte of the buffer but the `n` bytes from `a` reads as before. -/
def BufSameOutside (s t : State) (a n : Nat) : Prop :=
  ∀ x, (x < a ∨ a + n ≤ x) → t.bufByte x = s.bufByte x

/-- Every byte of the buffer reads as before. -/
def BufSame (s t : State) : Prop := ∀ x, t.bufByte x = s.bufByte x

/-- The four bytes of the MIC of a message under a key: the first four of the tag (R172). -/
def tagByte (k : BitVec 128) (m : List Byte) (j : Nat) : Byte := (aesCmac (keyBlock k) m).toBytes.getD j 0

/-- The split of a message that R171 makes: full blocks, then a last block of at most 16 bytes that is empty only if the
message is. -/
def CmacSplit (blocks : List (List Byte)) (last : List Byte) : Prop :=
  (∀ b ∈ blocks, b.length = 16) ∧ last.length ≤ 16 ∧ (last = [] → blocks = [])

/-- The CMAC input of a data frame, `B0 || BUF[0..LEN)` (R241). -/
def State.dataInput (s : State) (d : Dir) : List Byte :=
  b0 d s.devaddr s.fcnt32 s.len ++ s.memRead 0 s.len.toNat

/-- What a `*_SET` command leaves (R244, R247, R250): the MIC of `m` under `k` in `BUF[n..n+4)` and in `MIC`, success in
`STATUS`, and everything else as it was. -/
def SetsMic (i : Instr) (s : State) (k : BitVec 128) (m : List Byte) (n : Nat) : Prop :=
  ∃ t, exec i s = .next t ∧
    t = { s with mem := t.mem, mic := t.mic, err := false, valid := false, errcode := 0 } ∧
    (∀ j < 4, t.bufByte (n + j) = tagByte k m j ∧ byteOf t.mic j = tagByte k m j) ∧
    BufSameOutside s t n 4

/-- The transmitted MIC at `BUF[n..n+4)` is the MIC of `m` under `k` (R242). -/
def micEqual (s : State) (k : BitVec 128) (m : List Byte) (n : Nat) : Bool :=
  decide (∀ j : Nat, j < 4 → tagByte k m j = s.bufByte (n + j))

/-- The bytes of `BUF` a command may write, as (start, length), from the "Writes" column of R126. -/
def writtenRange (i : Instr) (s : State) : Nat × Nat :=
  match i with
  | .micDataSet _ => (s.len.toNat, 4)
  | .micJrSet => (19, 4)
  | .micJaSet => (s.len.toNat, 4)
  | .ctrEnc _ | .ctrDec _ => (s.payoff.toNat, s.paylen.toNat)
  | .jaEnc | .jaDec => (1, s.len.toNat + 3)
  | .encDevaddr => (s.foff.toNat, 4)
  | .encEui => (s.foff.toNat, 8)
  | .encNonce16 => (s.foff.toNat, 2)
  | .encNonce24 | .encFreq24 => (s.foff.toNat, 3)
  | .micDataChk _ | .micJrChk | .micJaChk
  | .decDevaddr | .decEui | .decNonce16 | .decNonce24 | .decFreq24 => (0, 0)

/-- The commands that write `MIC` (R45). -/
def writesMic : Instr → Bool
  | .micDataSet _ | .micJrSet | .micJaSet => true
  | .micDataChk _ | .micJrChk | .micJaChk | .ctrEnc _ | .ctrDec _ | .jaEnc | .jaDec
  | .encDevaddr | .encEui | .encNonce16 | .encNonce24 | .encFreq24
  | .decDevaddr | .decEui | .decNonce16 | .decNonce24 | .decFreq24 => false

/-- The commands that write `VAL` (R31, R44). -/
def writesVal : Instr → Bool
  | .decDevaddr | .decEui | .decNonce16 | .decNonce24 | .decFreq24 => true
  | .micDataSet _ | .micJrSet | .micJaSet
  | .micDataChk _ | .micJrChk | .micJaChk | .ctrEnc _ | .ctrDec _ | .jaEnc | .jaDec
  | .encDevaddr | .encEui | .encNonce16 | .encNonce24 | .encFreq24 => false

/-- The commands that write `CTRL.CIPH` (R50). -/
def writesCiph : Instr → Bool
  | .ctrEnc _ | .ctrDec _ | .jaEnc | .jaDec => true
  | .micDataSet _ | .micJrSet | .micJaSet | .micDataChk _ | .micJrChk | .micJaChk
  | .encDevaddr | .encEui | .encNonce16 | .encNonce24 | .encFreq24
  | .decDevaddr | .decEui | .decNonce16 | .decNonce24 | .decFreq24 => false

/-- The commands whose success can set `STATUS.VALID` (R35, R344). -/
def isCheck : Instr → Bool
  | .micDataChk _ | .micJrChk | .micJaChk => true
  | .micDataSet _ | .micJrSet | .micJaSet | .ctrEnc _ | .ctrDec _ | .jaEnc | .jaDec
  | .encDevaddr | .encEui | .encNonce16 | .encNonce24 | .encFreq24
  | .decDevaddr | .decEui | .decNonce16 | .decNonce24 | .decFreq24 => false

/-- The field codec commands (41_field_codec.md). -/
def isCodec : Instr → Bool
  | .encDevaddr | .encEui | .encNonce16 | .encNonce24 | .encFreq24
  | .decDevaddr | .decEui | .decNonce16 | .decNonce24 | .decFreq24 => true
  | .micDataSet _ | .micJrSet | .micJaSet | .micDataChk _ | .micJrChk | .micJaChk
  | .ctrEnc _ | .ctrDec _ | .jaEnc | .jaDec => false

/-- The condition of the `E_SIZE_MISMATCH` column of R344. -/
def sizeFails (i : Instr) (s : State) : Prop :=
  match i with
  | .micJrSet | .micJrChk => s.len.toNat ≠ 19
  | .micJaSet | .micJaChk | .jaEnc | .jaDec => s.len.toNat ≠ 13 ∧ s.len.toNat ≠ 29
  | .micDataSet _ | .micDataChk _ | .ctrEnc _ | .ctrDec _
  | .encDevaddr | .encEui | .encNonce16 | .encNonce24 | .encFreq24
  | .decDevaddr | .decEui | .decNonce16 | .decNonce24 | .decFreq24 => False

/-- The condition of the `E_BOUNDS` column of R344. -/
def boundsFails (i : Instr) (s : State) : Prop :=
  match i with
  | .ctrEnc _ | .ctrDec _ => 512 < s.payoff.toNat + s.paylen.toNat
  | .encDevaddr | .decDevaddr => 508 < s.foff.toNat
  | .encEui | .decEui => 504 < s.foff.toNat
  | .encNonce16 | .decNonce16 => 510 < s.foff.toNat
  | .encNonce24 | .decNonce24 | .encFreq24 | .decFreq24 => 509 < s.foff.toNat
  | .micDataSet _ | .micDataChk _ | .micJrSet | .micJrChk | .micJaSet | .micJaChk | .jaEnc | .jaDec => False

/-- The condition of the `E_STATE` column of R344. -/
def stateFails (i : Instr) (s : State) : Prop :=
  match i with
  | .micJaSet | .ctrEnc _ | .jaEnc => s.ciph = true
  | .ctrDec _ | .jaDec => s.ciph = false
  | .micDataSet _ | .micDataChk _ | .micJrSet | .micJrChk | .micJaChk
  | .encDevaddr | .encEui | .encNonce16 | .encNonce24 | .encFreq24
  | .decDevaddr | .decEui | .decNonce16 | .decNonce24 | .decFreq24 => False

/-- The condition of the `E_INVALID_ARGUMENT` column of R344. -/
def argumentFails (i : Instr) (s : State) : Prop :=
  match i with
  | .encDevaddr => 2 ^ 32 ≤ s.val.toNat
  | .encNonce16 => 2 ^ 16 ≤ s.val.toNat
  | .encNonce24 => 2 ^ 24 ≤ s.val.toNat
  | .encFreq24 => 1677721600 ≤ s.val.toNat
  | .micDataSet _ | .micDataChk _ | .micJrSet | .micJrChk | .micJaSet | .micJaChk
  | .ctrEnc _ | .ctrDec _ | .jaEnc | .jaDec | .encEui
  | .decDevaddr | .decEui | .decNonce16 | .decNonce24 | .decFreq24 => False

/-- The code a command ends with, in the total order of R345 after decoding. -/
def EndsWithCode (i : Instr) (s : State) (code : BitVec 8) : Prop :=
  (sizeFails i s → code = 3) ∧
  (¬ sizeFails i s → boundsFails i s → code = 4) ∧
  (¬ sizeFails i s → ¬ boundsFails i s → stateFails i s → code = 5) ∧
  (¬ sizeFails i s → ¬ boundsFails i s → ¬ stateFails i s → argumentFails i s → code = 2) ∧
  (¬ sizeFails i s → ¬ boundsFails i s → ¬ stateFails i s → ¬ argumentFails i s → code = 0)

/-- The state with other keys in it. -/
def State.withKeys (s : State) (nwk app root : BitVec 128) : State :=
  { s with nwkskey := nwk, appskey := app, appkey := root }

/-- An offset the map of R33 reserves (R84). -/
def reservedOffset (x : Nat) : Prop := (0x034 ≤ x ∧ x ≤ 0x03F) ∨ (0x070 ≤ x ∧ x ≤ 0x1FF)

/-- The conditions of R84 that hold for a read and a write alike. -/
def refusedAccess (off w : Nat) : Prop :=
  (w ≠ 1 ∧ w ≠ 2 ∧ w ≠ 4) ∨ off % w ≠ 0 ∨ ∃ b < w, reservedOffset (off + b)

/-- The bits of a register that a host write changes (R33, R83): none of `STATUS` and `MIC`. -/
def writableMask : Reg → Word
  | .status | .mic => 0
  | .ctrl => 0x1
  | .len | .fport => 0xFF
  | .payoff | .foff => 0x1FF
  | .paylen => 0x3FF
  | .devaddr | .fcnt32 | .valLo | .valHi => 0xFFFFFFFF

end Sys2Proof.Machine
end

