-- ==== Sys2Proof/Certificates/Slice0/Obligations.lean ====
section
/-! DEFINITION. The statements for the provers. Each says in its docstring which rules of the spec it formalises; the
vocabulary is that of Sys2Proof/Safety.lean. -/

open Sys2Proof Sys2Proof.Machine

/-! ### Reset and the invariant -/

/-- R381: the reset value of every piece of state of R30. `BUF` is a draw of which nothing is known. -/
def Obligations.ResetLeavesTheSpecValues : Prop :=
  State.reset.err = false ∧ State.reset.valid = false ∧ State.reset.errcode = 0 ∧ State.reset.ciph = false ∧
  State.reset.len = 0 ∧ State.reset.devaddr = 0 ∧ State.reset.fcnt32 = 0 ∧ State.reset.fport = 0 ∧
  State.reset.payoff = 0 ∧ State.reset.paylen = 0 ∧ State.reset.foff = 0 ∧ State.reset.val = 0 ∧
  State.reset.mic = 0 ∧ State.reset.nwkskey = 0 ∧ State.reset.appskey = 0 ∧ State.reset.appkey = 0 ∧
  (∀ a, State.reset.bufByte a = Config.bufReset State.reset.draw a) ∧
  hostRead 0x000 4 State.reset = .next (State.reset.give 0)

/-- R380, R382: the platform reset is one atomic event, possible in every state, that sets every register and key to
its reset value and every `BUF` byte to its draw. That the draw is a new one, and that what the host does next stays,
is the model's (log entries 1 and 2). -/
def Obligations.PlatformResetFromEveryState : Prop :=
  ∀ (s : State) (rest : List HostEvent), s.pending = .reset :: rest →
    step s = .next { State.reset with draw := s.draw + 1, pending := rest } ∧
    ∀ a, ({ State.reset with draw := s.draw + 1, pending := rest } : State).bufByte a
      = Config.bufReset (s.draw + 1) a

/-- Every step keeps the invariant: the buffer stays in its canonical form (log entry 1) and `STATUS` stays a value that
R35, R341 and U7 allow. -/
def Obligations.EveryStepKeepsTheInvariant : Prop :=
  ∀ s t : State, s.Inv → step s = .next t → t.Inv

/-- The invariant holds right after reset. -/
def Obligations.TheInvariantHoldsAtReset : Prop := State.reset.Inv

/-! ### The command word -/

/-- R129, R120, R121: command words written out from the encoding decode to the commands they stand for, and the three
illegal words of R129 select none. -/
def Obligations.WrittenWordsDecode : Prop :=
  decode 0x00000001 = .command (.micDataSet .up) ∧
  decode 0x00000102 = .command (.micDataChk .down) ∧
  decode 0x00000003 = .command .micJrSet ∧
  decode 0x00000006 = .command .micJaChk ∧
  decode 0x00000110 = .command (.ctrEnc .down) ∧
  decode 0x00000021 = .command .jaDec ∧
  decode 0x00000030 = .command .encDevaddr ∧
  decode 0x00000038 = .command .encFreq24 ∧
  (∃ why, decode 0x00000000 = .illegal why) ∧
  (∃ why, decode 0x00000103 = .illegal why) ∧
  (∃ why, decode 0x00000201 = .illegal why)

/-- R120, R121, R123: decode and encode agree on every command and on every 32-bit word. No other word decodes to the
command, so no bit of a word is dropped. -/
def Obligations.DecodeAndEncodeAgree : Prop :=
  ∀ (w : Word) (i : Instr), decode w = .command i ↔ w = encode i

/-- R124: the illegal words are exactly those with an `OP` outside R121, with `RSV` not 0, or with `DIR = 1` on an
opcode whose `DIR` must be 0; every other word selects a command, and each illegal word raises `E_ILLEGAL_CMD`. -/
def Obligations.IllegalWordsAreThoseOfTheSpec : Prop :=
  ∀ w : Word,
    let op := w.toNat % 256
    let dir := w.toNat / 256 % 2
    let rsv := w.toNat / 512
    ((op = 0x00 ∨ (0x07 ≤ op ∧ op ≤ 0x0F) ∨ (0x12 ≤ op ∧ op ≤ 0x1F) ∨ (0x22 ≤ op ∧ op ≤ 0x2F) ∨ 0x3A ≤ op)
      ∨ rsv ≠ 0
      ∨ (dir = 1 ∧ op ≠ 0x01 ∧ op ≠ 0x02 ∧ op ≠ 0x10 ∧ op ≠ 0x11)) ↔
    ((¬ ∃ i, decode w = .command i) ∧
      ∀ s : State, runCommand w s = .next { s with err := true, valid := false, errcode := 1 })

/-- R85: the 4-byte write of a word to `CMD` runs the command the word encodes, in one step. Around it the step only
takes the event off the queue and forgets the last answer (log entries 2 and 3). -/
def Obligations.StepRunsTheDecodedCommand : Prop :=
  ∀ (s : State) (rest : List HostEvent) (v : Nat) (i : Instr),
    v < 2 ^ 32 → s.pending = .write (.window 0x000) 4 v :: rest → decode (BitVec.ofNat 32 v) = .command i →
    step s = exec i { s with pending := rest, answer := none }

/-- R123, R342: an illegal word written to `CMD` puts `E_ILLEGAL_CMD` in `STATUS` and changes nothing else. -/
def Obligations.IllegalWordSetsStatusOnly : Prop :=
  ∀ (s : State) (rest : List HostEvent) (v : Nat) (why : IllegalWord),
    v < 2 ^ 32 → s.pending = .write (.window 0x000) 4 v :: rest → decode (BitVec.ofNat 32 v) = .illegal why →
    step s = .next { s with pending := rest, answer := none, err := true, valid := false, errcode := 1 }

/-! ### The host bus -/

/-- R84, R346: `BusError` is raised on each of its four conditions, for an offset of the window, and on no other. The
state in which a host goes on after it is the one it found, without the access (the model's, log entry 4). -/
def Obligations.BusErrorExactlyWhenTheSpecSays : Prop :=
  ∀ (s : State) (rest : List HostEvent) (off w v : Nat), off < 0x400 →
    (s.pending = .read (.window off) w :: rest → (step s = .fault .busError ↔ refusedAccess off w)) ∧
    (s.pending = .write (.window off) w v :: rest →
      (step s = .fault .busError ↔ refusedAccess off w ∨ ((w = 1 ∨ w = 2) ∧ off < 0x004))) ∧
    (∀ e, s.pending = e :: rest → s.afterBusError = { s with pending := rest, answer := none })

/-- R359, R85: a step either gives a next state or is the `BusError` of a host access; and a word written to `CMD`
always gives a next state, so no command hangs or ends in any other way. -/
def Obligations.StepEndsInNextStateOrBusError : Prop :=
  (∀ s : State, (∃ t, step s = .next t) ∨
    (step s = .fault .busError ∧ ∃ a w v, s.pending.head? = some (.read a w) ∨ s.pending.head? = some (.write a w v))) ∧
  (∀ (w : Word) (s : State), ∃ t, runCommand w s = .next t)

/-- R82, R83: an accepted read of width `w` returns the bytes of the window from `off` on, least significant first, and
changes nothing but the answer the host gets (log entry 3). -/
def Obligations.ReadReturnsTheBytesInLittleEndianOrder : Prop :=
  ∀ (s : State) (rest : List HostEvent) (off w : Nat), off < 0x400 → ¬ refusedAccess off w →
    s.pending = .read (.window off) w :: rest →
    ∃ v : Word, step s = .next { s with pending := rest, answer := some v } ∧
      ∀ b < 4, byteOf v b = if b < w then s.readByte (off + b) else 0

/-- R82: `HostRead(0x200 + a, 4) = le_value(MemRead(a, 4))`, and the same at the other widths. -/
def Obligations.BufferReadsAreMemReads : Prop :=
  ∀ (s : State) (a w : Nat), (w = 1 ∨ w = 2 ∨ w = 4) → a % w = 0 → a + w ≤ 512 →
    hostRead (0x200 + a) w s = .next (s.give (BitVec.ofNat 32 (leValue (s.memRead a w))))

/-- R33 to R45: what a 4-byte read of each register returns, its undefined bits zero, and zero for `CMD`. -/
def Obligations.RegisterReadsShowTheDefinedBits : Prop :=
  ∀ s : State,
    hostRead 0x000 4 s = .next (s.give 0) ∧
    hostRead 0x004 4 s = .next (s.give (BitVec.ofNat 32
      ((if s.err then 1 else 0) + (if s.valid then 2 else 0) + 256 * s.errcode.toNat))) ∧
    hostRead 0x008 4 s = .next (s.give (if s.ciph then 1 else 0)) ∧
    hostRead 0x00C 4 s = .next (s.give (BitVec.ofNat 32 s.len.toNat)) ∧
    hostRead 0x010 4 s = .next (s.give s.devaddr) ∧
    hostRead 0x014 4 s = .next (s.give s.fcnt32) ∧
    hostRead 0x018 4 s = .next (s.give (BitVec.ofNat 32 s.fport.toNat)) ∧
    hostRead 0x01C 4 s = .next (s.give (BitVec.ofNat 32 s.payoff.toNat)) ∧
    hostRead 0x020 4 s = .next (s.give (BitVec.ofNat 32 s.paylen.toNat)) ∧
    hostRead 0x024 4 s = .next (s.give (BitVec.ofNat 32 s.foff.toNat)) ∧
    hostRead 0x028 4 s = .next (s.give (BitVec.ofNat 32 (s.val.toNat % 2 ^ 32))) ∧
    hostRead 0x02C 4 s = .next (s.give (BitVec.ofNat 32 (s.val.toNat / 2 ^ 32))) ∧
    hostRead 0x030 4 s = .next (s.give s.mic)

/-- R46, R83: every byte of the three key registers reads as zero, at any accepted width. -/
def Obligations.KeyRegistersReadAsZero : Prop :=
  ∀ (s : State) (off w : Nat), 0x040 ≤ off → off + w ≤ 0x070 → (w = 1 ∨ w = 2 ∨ w = 4) → off % w = 0 →
    hostRead off w s = .next (s.give 0)

/-- R351: no host read, at any width, returns a key byte. Two states that differ only in their keys give the host the
same value, and the read leaves each its own keys. -/
def Obligations.KeysNeverReachAHostRead : Prop :=
  ∀ (s t : State) (off w : Nat) (k1 k2 k3 : BitVec 128),
    hostRead off w s = .next t → hostRead off w (s.withKeys k1 k2 k3) = .next (t.withKeys k1 k2 k3)

/-- R83, R36 to R44: a 4-byte write of each register gives its defined bits the value and changes nothing else; `STATUS`
and `MIC` ignore it. -/
def Obligations.RegisterWritesSetTheDefinedBits : Prop :=
  ∀ (s : State) (v : Nat), v < 2 ^ 32 →
    hostWrite 0x004 4 v s = .next s ∧
    hostWrite 0x008 4 v s = .next { s with ciph := decide (v % 2 = 1) } ∧
    hostWrite 0x00C 4 v s = .next { s with len := BitVec.ofNat 8 v } ∧
    hostWrite 0x010 4 v s = .next { s with devaddr := BitVec.ofNat 32 v } ∧
    hostWrite 0x014 4 v s = .next { s with fcnt32 := BitVec.ofNat 32 v } ∧
    hostWrite 0x018 4 v s = .next { s with fport := BitVec.ofNat 8 v } ∧
    hostWrite 0x01C 4 v s = .next { s with payoff := BitVec.ofNat 9 v } ∧
    hostWrite 0x020 4 v s = .next { s with paylen := BitVec.ofNat 10 v } ∧
    hostWrite 0x024 4 v s = .next { s with foff := BitVec.ofNat 9 v } ∧
    hostWrite 0x028 4 v s = .next { s with val := BitVec.ofNat 64 (2 ^ 32 * (s.val.toNat / 2 ^ 32) + v) } ∧
    hostWrite 0x02C 4 v s = .next { s with val := BitVec.ofNat 64 (2 ^ 32 * v + s.val.toNat % 2 ^ 32) } ∧
    hostWrite 0x030 4 v s = .next s

/-- R82, R83: a write of one, two or four bytes inside one register changes the defined bits of those bytes only; every
other register, every key, the buffer and the model's own fields stay. -/
def Obligations.RegisterBytesAreWrittenInPlace : Prop :=
  ∀ (s : State) (r : Reg) (j w v : Nat), (w = 1 ∨ w = 2 ∨ w = 4) → j % w = 0 → j + w ≤ 4 → v < 2 ^ (8 * w) →
    ∃ t, hostWrite (r.offset + j) w v s = .next t ∧
      (∀ b < 4, byteOf (t.getReg r) b =
        if j ≤ b ∧ b < j + w then
          (byteOf (s.getReg r) b &&& ~~~(byteOf (writableMask r) b))
            ||| (BitVec.ofNat 8 (v / 256 ^ (b - j)) &&& byteOf (writableMask r) b)
        else byteOf (s.getReg r) b) ∧
      (∀ r', r' ≠ r → t.getReg r' = s.getReg r') ∧
      (∀ k, t.getKey k = s.getKey k) ∧
      t.mem = s.mem ∧ t.draw = s.draw ∧ t.pending = s.pending ∧ t.answer = s.answer

/-- R46, R82, R83: a write inside a key register sets those key bytes, byte `b` of the value in key byte `j + b`, and
changes nothing else. -/
def Obligations.KeyBytesAreWrittenInPlace : Prop :=
  ∀ (s : State) (k : KeyName) (j w v : Nat), (w = 1 ∨ w = 2 ∨ w = 4) → j % w = 0 → j + w ≤ 16 → v < 2 ^ (8 * w) →
    ∃ t, hostWrite (k.offset + j) w v s = .next t ∧ t = s.setKey k (t.getKey k) ∧
      ∀ b < 16, byteOf (t.getKey k) b =
        if j ≤ b ∧ b < j + w then BitVec.ofNat 8 (v / 256 ^ (b - j)) else byteOf (s.getKey k) b

/-- R83: a write inside the buffer sets those bytes; every other byte of the buffer and every register stays. -/
def Obligations.BufferBytesAreWrittenInPlace : Prop :=
  ∀ (s : State) (a w v : Nat), (w = 1 ∨ w = 2 ∨ w = 4) → a % w = 0 → a + w ≤ 512 → v < 2 ^ (8 * w) →
    ∃ t, hostWrite (0x200 + a) w v s = .next t ∧ t = { s with mem := t.mem } ∧
      (∀ b < w, t.bufByte (a + b) = BitVec.ofNat 8 (v / 256 ^ b)) ∧ BufSameOutside s t a w

/-- R92: a read returns what the host wrote there last. The host writes a value to the buffer, then reads it back at the
same offset and width. -/
def Obligations.BufferReadReturnsTheLastWrite : Prop :=
  ∀ (s t : State) (rest : List HostEvent) (a w v : Nat),
    (w = 1 ∨ w = 2 ∨ w = 4) → a % w = 0 → a + w ≤ 512 → v < 2 ^ (8 * w) →
    s.pending = .write (.window (0x200 + a)) w v :: .read (.window (0x200 + a)) w :: rest →
    step s = .next t →
    ∃ u, step t = .next u ∧ u.answer = some (BitVec.ofNat 32 v) ∧ u.pending = rest

/-- R80, R90: the window is the 1 KiB from `BASE`, which is 1 KiB-aligned. A physical access inside it is the access at
that offset; one outside it is not the block's, and only leaves the queue (log entry 5). With nothing pending the block
is idle (R380). -/
def Obligations.OnlyTheWindowReachesTheBlock : Prop :=
  Config.base % 1024 = 0 ∧
  (∀ s : State, s.pending = [] → step s = .next s) ∧
  ∀ (s : State) (rest : List HostEvent) (addr w v : Nat),
    (Config.base ≤ addr → addr < Config.base + 1024 →
      (s.pending = .read (.physical addr) w :: rest →
        step s = step { s with pending := .read (.window (addr - Config.base)) w :: rest }) ∧
      (s.pending = .write (.physical addr) w v :: rest →
        step s = step { s with pending := .write (.window (addr - Config.base)) w v :: rest })) ∧
    (addr < Config.base ∨ Config.base + 1024 ≤ addr →
      (s.pending = .read (.physical addr) w :: rest ∨ s.pending = .write (.physical addr) w v :: rest) →
      step s = .next { s with pending := rest, answer := none })

/-! ### Host programs -/

/-- R128: the exact expansions of the pseudo-instructions; and `cmd MNEMONIC, down` on a command whose `DIR` must be 0
assembles to an illegal word, answered with `E_ILLEGAL_CMD`. `wreg` takes every name of the register map of R33, each
for the offset given there (log entry 18). -/
def Obligations.PseudoInstructionsExpandExactly : Prop :=
  (∀ (m : Mnemonic) (d : Dir), HostLine.expand (.cmd m d)
    = [.write (.window 0x000) 4 (m.opcode.toNat + if d = .down then 0x100 else 0)]) ∧
  (∀ m : Mnemonic, m.usesDir = false →
    (∃ why, decode (BitVec.ofNat 32 (m.opcode.toNat + 0x100)) = .illegal why) ∧
    ∀ s : State, runCommand (BitVec.ofNat 32 (m.opcode.toNat + 0x100)) s
      = .next { s with err := true, valid := false, errcode := 1 }) ∧
  (∀ (k : KeyName) (b : List Byte), b.length = 16 → HostLine.expand (.key k b)
    = (List.range 4).map fun j => .write (.window (k.offset + 4 * j)) 4 (leValue ((b.drop (4 * j)).take 4))) ∧
  (∀ (a : Nat) (b : List Byte), HostLine.expand (.buf a b)
    = (List.range b.length).map fun k => .write (.window (0x200 + a + k)) 1 (b.getD k 0).toNat) ∧
  (∀ v : Nat, HostLine.expand (.setval v)
    = [.write (.window 0x028) 4 (v % 2 ^ 32), .write (.window 0x02C) 4 (v / 2 ^ 32)]) ∧
  (∀ (n : WindowName) (v : Nat), HostLine.expand (.wreg n v) = [.write (.window n.offset) 4 v]) ∧
  [WindowName.cmd, .reg .status, .reg .ctrl, .reg .len, .reg .devaddr, .reg .fcnt32, .reg .fport, .reg .payoff,
      .reg .paylen, .reg .foff, .reg .valLo, .reg .valHi, .reg .mic, .key .nwkskey, .key .appskey, .key .appkey,
      .buf].map WindowName.offset
    = [0x000, 0x004, 0x008, 0x00C, 0x010, 0x014, 0x018, 0x01C, 0x020, 0x024, 0x028, 0x02C, 0x030, 0x040, 0x050, 0x060,
      0x200]

/-! ### Every command -/

/-- R342, R343: a command word that ends with `ERR = 1` has written the code of a raised error, `STATUS` then reads
`1 | code << 8`, and nothing else has changed. -/
def Obligations.FailedCommandChangesStatusOnly : Prop :=
  ∀ (w : Word) (s t : State), runCommand w s = .next t → t.err = true →
    ∃ e : ErrCode, e ≠ .ok ∧ e ≠ .crypto ∧
      t = { s with err := true, valid := false, errcode := e.code } ∧
      t.getReg .status = 1 ||| (e.code.setWidth 32 <<< 8)

/-- R341, R344, R345: the code a command word ends with is that of the first check that fails, in the order
`E_ILLEGAL_CMD`, `E_SIZE_MISMATCH`, `E_BOUNDS`, `E_STATE`, `E_INVALID_ARGUMENT`, under the conditions of the matrix, and
0 if none fails; `ERR` says whether there was one. No command checks both a size and bounds, and none both the flag and
an argument. -/
def Obligations.FirstFailingCheckGivesTheCode : Prop :=
  (∀ (w : Word) (s : State), ∃ t, runCommand w s = .next t ∧
    (t.err = true ↔ t.errcode ≠ 0) ∧
    (∀ why, decode w = .illegal why → t.errcode = 1) ∧
    (∀ i, decode w = .command i → EndsWithCode i s t.errcode)) ∧
  (∀ (i : Instr) (s s' : State), ¬ (sizeFails i s ∧ boundsFails i s')) ∧
  (∀ (i : Instr) (s s' : State), ¬ (stateFails i s ∧ argumentFails i s'))

/-- R126, R31, R45, R50: the frame of every command. It changes no operand register, no key and none of the model's own
fields; `MIC` changes only by a `*_SET`, `VAL` only by a `DEC_*`, `CTRL.CIPH` only by a cipher command; and of the
buffer only the bytes of the "Writes" column of R126. -/
def Obligations.CommandsWriteOnlyTheirResults : Prop :=
  ∀ (i : Instr) (s t : State), exec i s = .next t →
    t = { s with
      err := t.err, valid := t.valid, errcode := t.errcode, ciph := t.ciph, val := t.val, mic := t.mic,
      mem := t.mem } ∧
    (writesMic i = false → t.mic = s.mic) ∧
    (writesVal i = false → t.val = s.val) ∧
    (writesCiph i = false → t.ciph = s.ciph) ∧
    BufSameOutside s t (writtenRange i s).1 (writtenRange i s).2

/-- R35, R340, R50: after a command `VALID` is 1 only if the command was a `*_CHK` that ended without error; and a
command that ends without error leaves `STATUS` reading `VALID << 1`. -/
def Obligations.ValidMeansASuccessfulCheck : Prop :=
  ∀ (i : Instr) (s t : State), exec i s = .next t →
    (t.valid = true → isCheck i = true ∧ t.err = false) ∧
    (t.err = false → t.getReg .status = if t.valid then 2 else 0)

/-- R346, R83: no bus access other than a command writes `STATUS` or `MIC`. -/
def Obligations.OnlyCommandsWriteStatusAndMic : Prop :=
  ∀ (s t : State) (off w v : Nat), off ≠ 0 → hostWrite off w v s = .next t →
    t.err = s.err ∧ t.valid = s.valid ∧ t.errcode = s.errcode ∧ t.mic = s.mic

/-! ### Field codec -/

/-- The rule of an encoder of an `n`-byte field of the integer `u`, on every path (R201, R203). -/
def Sys2Proof.Machine.EncoderRule (i : Instr) (n : Nat) (u : State → Nat) : Prop :=
  ∀ s : State,
    (512 < s.foff.toNat + n → FailsWith i s 4) ∧
    (s.foff.toNat + n ≤ 512 → 256 ^ n ≤ u s → FailsWith i s 2) ∧
    (s.foff.toNat + n ≤ 512 → u s < 256 ^ n →
      ∃ t, exec i s = .next t ∧ t = { s with mem := t.mem, err := false, valid := false, errcode := 0 } ∧
        (∀ k < n, t.bufByte (s.foff.toNat + k) = BitVec.ofNat 8 (u s / 256 ^ k)) ∧
        BufSameOutside s t s.foff.toNat n)

/-- The rule of a decoder of an `n`-byte little-endian field, on every path (R201, R204). -/
def Sys2Proof.Machine.DecoderRule (i : Instr) (n : Nat) : Prop :=
  ∀ s : State,
    (512 < s.foff.toNat + n → FailsWith i s 4) ∧
    (s.foff.toNat + n ≤ 512 →
      ∃ t, exec i s = .next t ∧ t = { s with val := t.val, err := false, valid := false, errcode := 0 } ∧
        ∀ k < 8, byteOf t.val k = if k < n then s.bufByte (s.foff.toNat + k) else 0)

/-- R203, R207, R209: `ENC_DEVADDR`, `ENC_NONCE16` and `ENC_NONCE24`: the word, then bounds, then width, then the bytes
of `VAL`, least significant first, in the field and nothing else. -/
def Obligations.EncodersWriteTheFieldInWireOrder : Prop :=
  encode .encDevaddr = 0x30 ∧ encode .encNonce16 = 0x34 ∧ encode .encNonce24 = 0x36 ∧
  EncoderRule .encDevaddr 4 (fun s => s.val.toNat) ∧
  EncoderRule .encNonce16 2 (fun s => s.val.toNat) ∧
  EncoderRule .encNonce24 3 (fun s => s.val.toNat)

/-- R205: `ENC_EUI` has a bounds check only, since every 64-bit `VAL` fits. -/
def Obligations.EncodeEuiWritesAllOfVal : Prop :=
  encode .encEui = 0x32 ∧
  ∀ s : State,
    (504 < s.foff.toNat → FailsWith .encEui s 4) ∧
    (s.foff.toNat ≤ 504 →
      ∃ t, exec .encEui s = .next t ∧ t = { s with mem := t.mem, err := false, valid := false, errcode := 0 } ∧
        (∀ k < 8, t.bufByte (s.foff.toNat + k) = byteOf s.val k) ∧ BufSameOutside s t s.foff.toNat 8)

/-- R211: `ENC_FREQ24` writes the number of whole 100 Hz units, and refuses exactly the frequencies from 1 677 721 600 Hz
on. -/
def Obligations.EncodeFrequencyWritesHundredHertzUnits : Prop :=
  encode .encFreq24 = 0x38 ∧
  EncoderRule .encFreq24 3 (fun s => s.val.toNat / 100) ∧
  ∀ s : State, s.foff.toNat ≤ 509 → (FailsWith .encFreq24 s 2 ↔ 1677721600 ≤ s.val.toNat)

/-- R204, R206, R208, R210: `DEC_DEVADDR`, `DEC_EUI`, `DEC_NONCE16` and `DEC_NONCE24` put the field in the low bytes of
`VAL` and zero in the rest. -/
def Obligations.DecodersReadTheFieldInWireOrder : Prop :=
  encode .decDevaddr = 0x31 ∧ encode .decEui = 0x33 ∧ encode .decNonce16 = 0x35 ∧ encode .decNonce24 = 0x37 ∧
  DecoderRule .decDevaddr 4 ∧ DecoderRule .decEui 8 ∧ DecoderRule .decNonce16 2 ∧ DecoderRule .decNonce24 3

/-- R212, R214: `DEC_FREQ24` puts 100 times the field in `VAL`; the product fits, so `VAL_HI` is 0. -/
def Obligations.DecodeFrequencyGivesHertz : Prop :=
  encode .decFreq24 = 0x39 ∧
  ∀ s : State,
    (509 < s.foff.toNat → FailsWith .decFreq24 s 4) ∧
    (s.foff.toNat ≤ 509 →
      ∃ t, exec .decFreq24 s = .next t ∧ t = { s with val := t.val, err := false, valid := false, errcode := 0 } ∧
        t.val.toNat = 100 * ((s.bufByte s.foff.toNat).toNat + 256 * (s.bufByte (s.foff.toNat + 1)).toNat
          + 65536 * (s.bufByte (s.foff.toNat + 2)).toNat) ∧
        t.val.toNat ≤ 1677721500)

/-- The encoder, then the decoder, of one field gives `VAL` back as `v`; and the decoder, then the encoder, leaves every
byte of the buffer as it was (R213). -/
def Sys2Proof.Machine.FieldRoundTrip (enc dec : Instr) (n : Nat) (bound : Nat) (v : State → Nat) : Prop :=
  ∀ s : State, s.foff.toNat + n ≤ 512 →
    (s.val.toNat < bound →
      ∃ t u, exec enc s = .next t ∧ exec dec t = .next u ∧ u.err = false ∧ u.val.toNat = v s) ∧
    (∃ t u, exec dec s = .next t ∧ exec enc t = .next u ∧ u.err = false ∧ BufSame s u)

/-- R213: the round-trip laws of the five fields, both ways. -/
def Obligations.FieldsRoundTrip : Prop :=
  FieldRoundTrip .encDevaddr .decDevaddr 4 (2 ^ 32) (fun s => s.val.toNat) ∧
  FieldRoundTrip .encEui .decEui 8 (2 ^ 64) (fun s => s.val.toNat) ∧
  FieldRoundTrip .encNonce16 .decNonce16 2 (2 ^ 16) (fun s => s.val.toNat) ∧
  FieldRoundTrip .encNonce24 .decNonce24 3 (2 ^ 24) (fun s => s.val.toNat) ∧
  FieldRoundTrip .encFreq24 .decFreq24 3 1677721600 (fun s => 100 * (s.val.toNat / 100))

/-- R202: no codec command reads `CTRL.CIPH`, `MIC` or a key. Whatever those hold, it ends in the same code with the same
`VAL` and the same buffer, and leaves them as they are. -/
def Obligations.CodecIgnoresFlagMicAndKeys : Prop :=
  ∀ (i : Instr) (s t : State) (c : Bool) (m : BitVec 32) (k1 k2 k3 : BitVec 128), isCodec i = true →
    exec i s = .next t →
    exec i { s with ciph := c, mic := m, nwkskey := k1, appskey := k2, appkey := k3 }
      = .next { t with ciph := c, mic := m, nwkskey := k1, appskey := k2, appkey := k3 }

/-! ### MIC -/

/-- R240: the sixteen bytes of B0. -/
def Obligations.B0HasTheSpecLayout : Prop :=
  ∀ (a f : Word) (n : BitVec 8),
    b0 .up a f n = [0x49, 0, 0, 0, 0, 0, byteOf a 0, byteOf a 1, byteOf a 2, byteOf a 3,
      byteOf f 0, byteOf f 1, byteOf f 2, byteOf f 3, 0, n] ∧
    b0 .down a f n = [0x49, 0, 0, 0, 0, 1, byteOf a 0, byteOf a 1, byteOf a 2, byteOf a 3,
      byteOf f 0, byteOf f 1, byteOf f 2, byteOf f 3, 0, n]

/-- R244, R241: `MIC_DATA_SET` never fails, and places the MIC of `B0 || BUF[0..LEN)` under `NWKSKEY` after the message
and in `MIC`. -/
def Obligations.SetDataMic : Prop :=
  encode (.micDataSet .up) = 0x001 ∧ encode (.micDataSet .down) = 0x101 ∧
  ∀ (d : Dir) (s : State), SetsMic (.micDataSet d) s s.nwkskey (s.dataInput d) s.len.toNat

/-- R245, R243: `MIC_DATA_CHK` never fails and changes `STATUS` only; `VALID` is whether the MIC in the frame is the one
computed. -/
def Obligations.CheckDataMic : Prop :=
  encode (.micDataChk .up) = 0x002 ∧ encode (.micDataChk .down) = 0x102 ∧
  ∀ (d : Dir) (s : State), ChecksTo (.micDataChk d) s (micEqual s s.nwkskey (s.dataInput d) s.len.toNat)

/-- R247: `MIC_JR_SET` takes `LEN = 19` and nothing else, and sets the MIC of the whole message under `APPKEY`. -/
def Obligations.SetJoinRequestMic : Prop :=
  encode .micJrSet = 0x003 ∧
  ∀ s : State,
    (s.len.toNat = 19 → SetsMic .micJrSet s s.appkey (s.memRead 0 19) 19) ∧
    (s.len.toNat ≠ 19 → FailsWith .micJrSet s 3)

/-- R248: `MIC_JR_CHK`. -/
def Obligations.CheckJoinRequestMic : Prop :=
  encode .micJrChk = 0x004 ∧
  ∀ s : State,
    (s.len.toNat = 19 → ChecksTo .micJrChk s (micEqual s s.appkey (s.memRead 0 19) 19)) ∧
    (s.len.toNat ≠ 19 → FailsWith .micJrChk s 3)

/-- R250: `MIC_JA_SET` takes `LEN` 13 or 29, then a plaintext frame, and sets the MIC of the message under `APPKEY`. -/
def Obligations.SetJoinAcceptMic : Prop :=
  encode .micJaSet = 0x005 ∧
  ∀ s : State,
    (s.len.toNat ≠ 13 ∧ s.len.toNat ≠ 29 → FailsWith .micJaSet s 3) ∧
    (s.len.toNat = 13 ∨ s.len.toNat = 29 → s.ciph = true → FailsWith .micJaSet s 5) ∧
    (s.len.toNat = 13 ∨ s.len.toNat = 29 → s.ciph = false →
      SetsMic .micJaSet s s.appkey (s.memRead 0 s.len.toNat) s.len.toNat)

/-- R251: `MIC_JA_CHK`; a frame still encrypted gives `VALID = 0` without error, whatever its bytes. -/
def Obligations.CheckJoinAcceptMic : Prop :=
  encode .micJaChk = 0x006 ∧
  ∀ s : State,
    (s.len.toNat ≠ 13 ∧ s.len.toNat ≠ 29 → FailsWith .micJaChk s 3) ∧
    (s.len.toNat = 13 ∨ s.len.toNat = 29 → s.ciph = true → ChecksTo .micJaChk s false) ∧
    (s.len.toNat = 13 ∨ s.len.toNat = 29 → s.ciph = false →
      ChecksTo .micJaChk s (micEqual s s.appkey (s.memRead 0 s.len.toNat) s.len.toNat))

/-- R252: the data-frame MIC commands do not read `CTRL.CIPH`. -/
def Obligations.DataMicIgnoresTheFlag : Prop :=
  ∀ (d : Dir) (s t : State) (c : Bool),
    (exec (.micDataSet d) s = .next t → exec (.micDataSet d) { s with ciph := c } = .next { t with ciph := c }) ∧
    (exec (.micDataChk d) s = .next t → exec (.micDataChk d) { s with ciph := c } = .next { t with ciph := c })

/-- R244 to R251: what a `*_SET` sets, the `*_CHK` that follows finds valid, for each kind of frame. -/
def Obligations.SetThenCheckIsValid : Prop :=
  (∀ (d : Dir) (s : State), ∃ t u, exec (.micDataSet d) s = .next t ∧ exec (.micDataChk d) t = .next u ∧
    u.valid = true) ∧
  (∀ s : State, s.len.toNat = 19 → ∃ t u, exec .micJrSet s = .next t ∧ exec .micJrChk t = .next u ∧
    u.valid = true) ∧
  (∀ s : State, s.len.toNat = 13 ∨ s.len.toNat = 29 → s.ciph = false →
    ∃ t u, exec .micJaSet s = .next t ∧ exec .micJaChk t = .next u ∧ u.valid = true)

/-! ### AES and CMAC -/

/-- R162, R163: the table of `SBOX` is the affine map of the inverse in GF(2^8), and that of `INV_SBOX` its inverse. -/
def Obligations.SboxTablesMatchTheirFormula : Prop :=
  ∀ a : Byte,
    (∃ b : Byte, (a = 0 → b = 0) ∧ (a ≠ 0 → gmul a b = 1) ∧
      sbox a = b ^^^ b.rotateLeft 1 ^^^ b.rotateLeft 2 ^^^ b.rotateLeft 3 ^^^ b.rotateLeft 4 ^^^ 0x63) ∧
    invSbox (sbox a) = a

/-- Word `w[i]` of the key schedule: word `i mod 4` of round key `floor(i / 4)` (R165). -/
def Sys2Proof.Machine.scheduleWord (k : Block) (i : Nat) : Column :=
  match i % 4 with
  | 0 => (roundKey k (i / 4)).c0
  | 1 => (roundKey k (i / 4)).c1
  | 2 => (roundKey k (i / 4)).c2
  | _ => (roundKey k (i / 4)).c3

/-- R165: the recurrence of the key schedule, word by word, and its first four words. -/
def Obligations.KeyScheduleFollowsItsRecurrence : Prop :=
  ∀ k : Block,
    scheduleWord k 0 = k.c0 ∧ scheduleWord k 1 = k.c1 ∧ scheduleWord k 2 = k.c2 ∧ scheduleWord k 3 = k.c3 ∧
    ∀ i, 4 ≤ i → i ≤ 43 →
      scheduleWord k i = (scheduleWord k (i - 4)).xor
        (if i % 4 = 0 then (subWord (rotWord (scheduleWord k (i - 1)))).xor ⟨rcon (i / 4), 0, 0, 0⟩
        else scheduleWord k (i - 1))

/-- R167: the inverse cipher and the cipher undo each other, for every key and block. -/
def Obligations.CipherAndInverseUndoEachOther : Prop :=
  ∀ k b : Block, aesDec k (aesEnc k b) = b ∧ aesEnc k (aesDec k b) = b

/-- R169: doubling in GF(2^128), on the integer the sixteen bytes stand for. -/
def Obligations.DoublingReducesByTheCmacPolynomial : Prop :=
  ∀ x : Block,
    beValue (dbl x).toBytes =
      if beValue x.toBytes < 2 ^ 127 then 2 * beValue x.toBytes
      else (2 * beValue x.toBytes - 2 ^ 128) ^^^ 0x87

/-- R170, R171 (which the spec marks as its general knowledge, log entry 8): the tag of every message. The full blocks
before the last are chained from the zero block, one encryption to each; the last block, of 16 bytes or of fewer and then
padded, enters with its subkey. Every message is full blocks and a last block, which is empty only if the message is. -/
def Obligations.CmacPadsAndChains : Prop :=
  (∀ k : Block, cmacK1 k = dbl (aesEnc k Block.zero) ∧ cmacK2 k = dbl (cmacK1 k) ∧
    ∀ (blocks : List (List Byte)) (last : List Byte), CmacSplit blocks last →
      aesCmac k (blocks.flatten ++ last) =
        aesEnc k ((blocks.foldl (fun x b => aesEnc k (x.xor (Block.ofBytes b))) Block.zero).xor
          (if last.length = 16 then (Block.ofBytes last).xor (cmacK1 k)
          else (Block.ofBytes (last ++ [0x80] ++ List.replicate (15 - last.length) 0)).xor (cmacK2 k)))) ∧
  ∀ m : List Byte, ∃ blocks last, CmacSplit blocks last ∧ m = blocks.flatten ++ last

/-! ### FRMPayload cipher -/

/-- R280: the sixteen bytes of the counter block, for every index a command uses. -/
def Obligations.CounterBlockHasTheSpecLayout : Prop :=
  ∀ (a f : Word) (i : Nat), 1 ≤ i → i ≤ 255 →
    ∃ b : Byte, b.toNat = i ∧
    counterBlock .up a f i = [0x01, 0, 0, 0, 0, 0, byteOf a 0, byteOf a 1, byteOf a 2, byteOf a 3,
      byteOf f 0, byteOf f 1, byteOf f 2, byteOf f 3, 0, b] ∧
    counterBlock .down a f i = [0x01, 0, 0, 0, 0, 1, byteOf a 0, byteOf a 1, byteOf a 2, byteOf a 3,
      byteOf f 0, byteOf f 1, byteOf f 2, byteOf f 3, 0, b]

/-- The success of a CTR command (R281, R282): byte `j` of the range is exclusive-ored with byte `j mod 16` of keystream
block `floor(j / 16) + 1` under the key `FPORT` selects, the flag is `ciph`, and nothing else changes but `STATUS`. -/
def Sys2Proof.Machine.CiphersPayload (i : Instr) (d : Dir) (s : State) (ciph : Bool) : Prop :=
  ∃ t, exec i s = .next t ∧
    t = { s with mem := t.mem, ciph := ciph, err := false, valid := false, errcode := 0 } ∧
    (∀ j < s.paylen.toNat, t.bufByte (s.payoff.toNat + j) =
      s.bufByte (s.payoff.toNat + j) ^^^
        (aesEnc (keyBlock (if s.fport = 0 then s.nwkskey else s.appskey))
          (Block.ofBytes (counterBlock d s.devaddr s.fcnt32 (j / 16 + 1)))).toBytes.getD (j % 16) 0) ∧
    BufSameOutside s t s.payoff.toNat s.paylen.toNat

/-- R283, R281, R282: `CTR_ENC` on every path. -/
def Obligations.EncryptPayload : Prop :=
  encode (.ctrEnc .up) = 0x010 ∧ encode (.ctrEnc .down) = 0x110 ∧
  ∀ (d : Dir) (s : State),
    (512 < s.payoff.toNat + s.paylen.toNat → FailsWith (.ctrEnc d) s 4) ∧
    (s.payoff.toNat + s.paylen.toNat ≤ 512 → s.ciph = true → FailsWith (.ctrEnc d) s 5) ∧
    (s.payoff.toNat + s.paylen.toNat ≤ 512 → s.ciph = false → CiphersPayload (.ctrEnc d) d s true)

/-- R284, R281, R282: `CTR_DEC` on every path. -/
def Obligations.DecryptPayload : Prop :=
  encode (.ctrDec .up) = 0x011 ∧ encode (.ctrDec .down) = 0x111 ∧
  ∀ (d : Dir) (s : State),
    (512 < s.payoff.toNat + s.paylen.toNat → FailsWith (.ctrDec d) s 4) ∧
    (s.payoff.toNat + s.paylen.toNat ≤ 512 → s.ciph = false → FailsWith (.ctrDec d) s 5) ∧
    (s.payoff.toNat + s.paylen.toNat ≤ 512 → s.ciph = true → CiphersPayload (.ctrDec d) d s false)

/-- R285: `CTRX` is its own inverse on every string. `CTR_ENC` then `CTR_DEC` restores the buffer and the flag; a second
`CTR_ENC` raises `E_STATE`; and after the host has cleared the flag a `CTR_ENC` restores the buffer. -/
def Obligations.PayloadCipherIsSelfInverse : Prop :=
  (∀ (k : Block) (d : Dir) (a f : Word) (p : List Byte), ctrx k d a f (ctrx k d a f p) = p) ∧
  ∀ (d : Dir) (s : State), s.payoff.toNat + s.paylen.toNat ≤ 512 → s.ciph = false →
    ∃ t u v, exec (.ctrEnc d) s = .next t ∧ t.ciph = true ∧ exec (.ctrDec d) t = .next u ∧
      u.err = false ∧ u.ciph = false ∧ BufSame s u ∧
      FailsWith (.ctrEnc d) t 5 ∧
      exec (.ctrEnc d) (t.setCiph false) = .next v ∧ v.err = false ∧ BufSame s v

/-! ### JoinAccept cipher -/

/-- The success of a JoinAccept cipher command (R310, R311): each 16-byte block of `BUF[1..LEN+4)` becomes `f` of itself,
the flag is `ciph`, and nothing else changes but `STATUS`. -/
def Sys2Proof.Machine.CiphersJoinAccept (i : Instr) (f : Block → Block) (s : State) (ciph : Bool) : Prop :=
  ∃ t, exec i s = .next t ∧
    t = { s with mem := t.mem, ciph := ciph, err := false, valid := false, errcode := 0 } ∧
    (∀ j < s.len.toNat + 3, t.bufByte (1 + j) =
      (f (Block.ofBytes (s.memRead (1 + 16 * (j / 16)) 16))).toBytes.getD (j % 16) 0) ∧
    BufSameOutside s t 1 (s.len.toNat + 3)

/-- R312, R315: `JA_ENC` on every path, with the AES decrypt direction. -/
def Obligations.EncryptJoinAccept : Prop :=
  encode .jaEnc = 0x020 ∧
  ∀ s : State,
    (s.len.toNat ≠ 13 ∧ s.len.toNat ≠ 29 → FailsWith .jaEnc s 3) ∧
    (s.len.toNat = 13 ∨ s.len.toNat = 29 → s.ciph = true → FailsWith .jaEnc s 5) ∧
    (s.len.toNat = 13 ∨ s.len.toNat = 29 → s.ciph = false →
      CiphersJoinAccept .jaEnc (aesDec (keyBlock s.appkey)) s true)

/-- R313: `JA_DEC` on every path, with the AES encrypt direction. -/
def Obligations.DecryptJoinAccept : Prop :=
  encode .jaDec = 0x021 ∧
  ∀ s : State,
    (s.len.toNat ≠ 13 ∧ s.len.toNat ≠ 29 → FailsWith .jaDec s 3) ∧
    (s.len.toNat = 13 ∨ s.len.toNat = 29 → s.ciph = false → FailsWith .jaDec s 5) ∧
    (s.len.toNat = 13 ∨ s.len.toNat = 29 → s.ciph = true →
      CiphersJoinAccept .jaDec (aesEnc (keyBlock s.appkey)) s false)

/-- R314: `JA_ENC` then `JA_DEC`, and `JA_DEC` then `JA_ENC`, restore the buffer and the flag. -/
def Obligations.JoinAcceptCipherRoundTrips : Prop :=
  ∀ s : State, s.len.toNat = 13 ∨ s.len.toNat = 29 →
    (s.ciph = false → ∃ t u, exec .jaEnc s = .next t ∧ exec .jaDec t = .next u ∧
      u.err = false ∧ u.ciph = false ∧ BufSame s u) ∧
    (s.ciph = true → ∃ t u, exec .jaDec s = .next t ∧ exec .jaEnc t = .next u ∧
      u.err = false ∧ u.ciph = true ∧ BufSame s u)

/-! ### Orders of operations -/

/-- R314, R390: the JoinAccept path, server and device: `MIC_JA_SET`, `JA_ENC`, `JA_DEC`, `MIC_JA_CHK` ends with
`VALID = 1` and the message as it was. -/
def Obligations.JoinAcceptPathValidates : Prop :=
  ∀ s : State, s.len.toNat = 13 ∨ s.len.toNat = 29 → s.ciph = false →
    ∃ t u v w, exec .micJaSet s = .next t ∧ exec .jaEnc t = .next u ∧ exec .jaDec u = .next v ∧
      exec .micJaChk v = .next w ∧ w.valid = true ∧ w.err = false ∧ w.memRead 0 s.len.toNat = s.memRead 0 s.len.toNat

/-- R390: the data-frame path, sender and receiver: `CTR_ENC`, `MIC_DATA_SET`, `MIC_DATA_CHK`, `CTR_DEC`, for a payload
inside the message, ends with the check valid and the message as it was. -/
def Obligations.DataFramePathRestoresTheMessage : Prop :=
  ∀ (d : Dir) (s : State), s.payoff.toNat + s.paylen.toNat ≤ s.len.toNat → s.ciph = false →
    ∃ t u v w, exec (.ctrEnc d) s = .next t ∧ exec (.micDataSet d) t = .next u ∧
      exec (.micDataChk d) u = .next v ∧ v.valid = true ∧ exec (.ctrDec d) v = .next w ∧
      w.err = false ∧ w.ciph = false ∧ w.memRead 0 s.len.toNat = s.memRead 0 s.len.toNat

/-- R390: the misorderings the block observes. A second `CTR_ENC` or `JA_ENC` and a `MIC_JA_SET` after `JA_ENC` end in
`E_STATE`; a `MIC_JA_CHK` before `JA_DEC` gives `VALID = 0` without error; a `CTR_DEC` or `JA_DEC` of plaintext ends in
`E_STATE`. -/
def Obligations.MisorderingsAreDetected : Prop :=
  (∀ (d e : Dir) (s t : State), exec (.ctrEnc d) s = .next t → t.err = false → FailsWith (.ctrEnc e) t 5) ∧
  (∀ s t : State, exec .jaEnc s = .next t → t.err = false →
    FailsWith .jaEnc t 5 ∧ FailsWith .micJaSet t 5 ∧ ChecksTo .micJaChk t false) ∧
  (∀ (d e : Dir) (s t : State), exec (.ctrDec d) s = .next t → t.err = false → FailsWith (.ctrDec e) t 5) ∧
  (∀ s t : State, exec .jaDec s = .next t → t.err = false → FailsWith .jaDec t 5)
end

