-- ==== Sys2Proof/Laws/Bytes.lean ====
section
/-! SUPPORT. Integers and byte strings (R11), bytes of a bit vector (R82), and the comparison of R242. -/

namespace Sys2Proof.Machine

/-! ### `le_bytes` and `le_value` -/

@[simp] theorem leBytes_length (n v : Nat) : (leBytes n v).length = n := by
  induction n generalizing v with
  | zero => rfl
  | succ n ih => simp [leBytes, ih]

/-- Byte `k` of `le_bytes_n(v)` is `v[8k+7:8k]`. -/
theorem leBytes_getD (n v k : Nat) (h : k < n) : (leBytes n v).getD k 0 = BitVec.ofNat 8 (v / 256 ^ k) := by
  induction n generalizing v k with
  | zero => omega
  | succ n ih =>
    cases k with
    | zero => simp [leBytes]
    | succ k =>
      rw [leBytes, List.getD_cons_succ, ih _ _ (by omega), Nat.div_div_eq_div_mul, Nat.pow_succ, Nat.mul_comm]

theorem leValue_lt (bs : List Byte) : leValue bs < 256 ^ bs.length := by
  induction bs with
  | nil => simp [leValue]
  | cons b bs ih =>
    have hb : b.toNat < 256 := b.isLt
    rw [leValue, List.length_cons, Nat.pow_succ]
    omega

/-- `le_value(le_bytes_N(v)) = v` (R11). -/
theorem leValue_leBytes (n v : Nat) (h : v < 256 ^ n) : leValue (leBytes n v) = v := by
  induction n generalizing v with
  | zero => simp at h; simp [leBytes, leValue, h]
  | succ n ih =>
    rw [Nat.pow_succ] at h
    rw [leBytes, leValue, ih _ (by omega), BitVec.toNat_ofNat]
    omega

theorem leBytes_leValue (bs : List Byte) : leBytes bs.length (leValue bs) = bs := by
  induction bs with
  | nil => rfl
  | cons b bs ih =>
    have hb : b.toNat < 256 := b.isLt
    have h1 : (b.toNat + 256 * leValue bs) / 256 = leValue bs := by omega
    rw [List.length_cons, leBytes, leValue, h1, ih]
    congr 1
    apply BitVec.eq_of_toNat_eq
    simp only [BitVec.toNat_ofNat]
    omega

/-- `le_bytes` drops what lies above its bytes. -/
theorem leBytes_mod (n v : Nat) : leBytes n (v % 256 ^ n) = leBytes n v := by
  induction n generalizing v with
  | zero => rfl
  | succ n ih =>
    have h1 : v % 256 ^ (n + 1) / 256 = v / 256 % 256 ^ n := by
      rw [Nat.pow_succ, Nat.mul_comm, Nat.mod_mul_right_div_self]
    rw [leBytes, leBytes, h1, ih]
    congr 1
    apply BitVec.eq_of_toNat_eq
    simp only [BitVec.toNat_ofNat]
    rw [Nat.mod_mod_of_dvd]
    exact ⟨256 ^ n, by rw [Nat.pow_succ, Nat.mul_comm]⟩

/-- Byte `k` of `le_value(s)` is `s[k]`. -/
theorem leValue_div_pow (bs : List Byte) (k : Nat) : BitVec.ofNat 8 (leValue bs / 256 ^ k) = bs.getD k 0 := by
  induction bs generalizing k with
  | nil => simp [leValue]
  | cons b bs ih =>
    have hb : b.toNat < 256 := b.isLt
    cases k with
    | zero =>
      apply BitVec.eq_of_toNat_eq
      simp only [leValue, Nat.pow_zero, Nat.div_one, BitVec.toNat_ofNat, List.getD_cons_zero]
      omega
    | succ k =>
      have h1 : (b.toNat + 256 * leValue bs) / 256 = leValue bs := by omega
      rw [leValue, Nat.pow_succ, Nat.mul_comm (256 ^ k), ← Nat.div_div_eq_div_mul, h1, ih, List.getD_cons_succ]

@[simp] theorem beBytes_length (n v : Nat) : (beBytes n v).length = n := by simp [beBytes]

theorem beValue_beBytes (n v : Nat) (h : v < 256 ^ n) : beValue (beBytes n v) = v := by
  simp [beValue, beBytes, leValue_leBytes n v h]

theorem beValue_lt (bs : List Byte) : beValue bs < 256 ^ bs.length := by
  simpa [beValue] using leValue_lt bs.reverse

/-! ### Bytes of a bit vector -/

/-- A byte of a bit vector as a number. -/
theorem byteOf_eq_ofNat {n : Nat} (v : BitVec n) (j : Nat) : byteOf v j = BitVec.ofNat 8 (v.toNat / 256 ^ j) := by
  apply BitVec.eq_of_toNat_eq
  simp [byteOf, Nat.shiftRight_eq_div_pow, Nat.pow_mul]

theorem byteOf_ofNat (n v j : Nat) (h : 8 * (j + 1) ≤ n) :
    byteOf (BitVec.ofNat n v) j = BitVec.ofNat 8 (v / 256 ^ j) := by
  rw [byteOf_eq_ofNat, BitVec.toNat_ofNat]
  apply BitVec.eq_of_toNat_eq
  simp only [BitVec.toNat_ofNat]
  obtain ⟨k, rfl⟩ : ∃ k, n = 8 * j + (8 + k) := ⟨n - 8 * j - 8, by omega⟩
  have h256 : (256 : Nat) ^ j = 2 ^ (8 * j) := by rw [Nat.pow_mul]
  rw [h256, Nat.pow_add, Nat.mod_mul_right_div_self, Nat.pow_add, Nat.mod_mul_right_mod]

/-- The bytes of the register value of a byte string are the string's (R11, R45). -/
theorem byteOf_ofNat_leValue (n : Nat) (bs : List Byte) (j : Nat) (h : 8 * (j + 1) ≤ n) :
    byteOf (BitVec.ofNat n (leValue bs)) j = bs.getD j 0 := by
  rw [byteOf_ofNat n _ j h, leValue_div_pow]

theorem byteOf_getLsbD {n : Nat} (v : BitVec n) (j i : Nat) :
    (byteOf v j).getLsbD i = (decide (i < 8) && v.getLsbD (8 * j + i)) := by
  simp [byteOf]

/-- `byteOf` and the bitwise operations. -/
theorem byteOf_and {n : Nat} (v w : BitVec n) (j : Nat) : byteOf (v &&& w) j = byteOf v j &&& byteOf w j := by
  apply BitVec.eq_of_getLsbD_eq
  intro i hi
  simp only [byteOf_getLsbD, BitVec.getLsbD_and, hi, decide_true, Bool.true_and]

theorem byteOf_or {n : Nat} (v w : BitVec n) (j : Nat) : byteOf (v ||| w) j = byteOf v j ||| byteOf w j := by
  apply BitVec.eq_of_getLsbD_eq
  intro i hi
  simp only [byteOf_getLsbD, BitVec.getLsbD_or, hi, decide_true, Bool.true_and]

/-- Two bit vectors of whole bytes are equal when their bytes are. -/
theorem eq_of_byteOf {n : Nat} (v w : BitVec (8 * n)) (h : ∀ j < n, byteOf v j = byteOf w j) : v = w := by
  apply BitVec.eq_of_getLsbD_eq
  intro i hi
  have h1 := h (i / 8) (by omega)
  have h2 : (byteOf v (i / 8)).getLsbD (i % 8) = (byteOf w (i / 8)).getLsbD (i % 8) := by rw [h1]
  have h3 : 8 * (i / 8) + i % 8 = i := by omega
  rw [byteOf_getLsbD, byteOf_getLsbD, h3] at h2
  simpa [Nat.mod_lt] using h2

/-- Replacing byte `j` of a register leaves the other bytes (R82, R83). -/
theorem byteOf_withByte {n : Nat} (v : BitVec n) (j k : Nat) (b : Byte) (h : 8 * (k + 1) ≤ n) :
    byteOf (withByte v j b) k = if k = j then b else byteOf v k := by
  apply BitVec.eq_of_getLsbD_eq
  intro i hi
  have hik : 8 * k + i < n := by omega
  rw [byteOf_getLsbD]
  simp only [withByte, BitVec.getLsbD_or, BitVec.getLsbD_and, BitVec.getLsbD_not, BitVec.getLsbD_shiftLeft,
    BitVec.getLsbD_setWidth, hik, hi, decide_true, Bool.true_and]
  split
  · next hkj =>
    subst hkj
    have h1 : 8 * k + i - 8 * k = i := by omega
    have h2 : ¬ 8 * k + i < 8 * k := by omega
    have h3 : (255#8).getLsbD i = true := by
      have : ∀ i < 8, (255#8).getLsbD i = true := by decide
      exact this i hi
    have h4 : i < n := by omega
    rw [h1, h3]
    simp [h2, h4]
  · next hkj =>
    rw [byteOf_getLsbD]
    simp only [hi, decide_true, Bool.true_and]
    by_cases h1 : 8 * k + i < 8 * j
    · simp [h1]
    · have h2 : 8 ≤ 8 * k + i - 8 * j := by omega
      have h3 : (255#8).getLsbD (8 * k + i - 8 * j) = false := BitVec.getLsbD_of_ge _ _ h2
      have h4 : b.getLsbD (8 * k + i - 8 * j) = false := BitVec.getLsbD_of_ge _ _ h2
      simp [h3, h4]

/-! ### The MIC comparison -/

/-- `ct_equal(x, y)` is true if and only if `x[k] = y[k]` for every `k` in 0 to 3 (R242). -/
theorem ctEqual_iff (x y : List Byte) : ctEqual x y = true ↔ ∀ k < 4, x.getD k 0 = y.getD k 0 := by
  have h : ctEqual x y = (x.getD 0 0 == y.getD 0 0 && x.getD 1 0 == y.getD 1 0 && x.getD 2 0 == y.getD 2 0
      && x.getD 3 0 == y.getD 3 0) := by
    simp [ctEqual, List.range_succ]
  rw [h]
  simp only [Bool.and_eq_true, beq_iff_eq]
  constructor
  · rintro ⟨⟨⟨h0, h1⟩, h2⟩, h3⟩ k hk
    match k, hk with
    | 0, _ => exact h0
    | 1, _ => exact h1
    | 2, _ => exact h2
    | 3, _ => exact h3
  · intro hk
    exact ⟨⟨⟨hk 0 (by omega), hk 1 (by omega)⟩, hk 2 (by omega)⟩, hk 3 (by omega)⟩

theorem ctEqual_self (x : List Byte) : ctEqual x x = true := (ctEqual_iff x x).2 fun _ _ => rfl

/-- Byte-wise exclusive or twice with one string restores the other. -/
theorem xorBytes_cancel (p t : List Byte) (h : p.length ≤ t.length) : xorBytes (xorBytes p t) t = p := by
  induction p generalizing t with
  | nil => simp [xorBytes]
  | cons b p ih =>
    cases t with
    | nil => simp at h
    | cons c t =>
      have hx : xorBytes (b :: p) (c :: t) = (b ^^^ c) :: xorBytes p t := rfl
      have hy : xorBytes ((b ^^^ c) :: xorBytes p t) (c :: t) = (b ^^^ c ^^^ c) :: xorBytes (xorBytes p t) t := rfl
      rw [hx, hy, ih t (by simpa using h), BitVec.xor_assoc, BitVec.xor_self, BitVec.xor_zero]

theorem xorBytes_getD (p t : List Byte) (k : Nat) (hp : k < p.length) (ht : k < t.length) :
    (xorBytes p t).getD k 0 = p.getD k 0 ^^^ t.getD k 0 := by
  simp [xorBytes, hp, ht]

theorem xorBytes_length (p t : List Byte) (h : p.length ≤ t.length) : (xorBytes p t).length = p.length := by
  simp [xorBytes]; omega

end Sys2Proof.Machine
end

