-- ==== Sys2Proof/Laws/Aes.lean ====
section
/-! SUPPORT. The algebra behind AES (R160 to R167): the S-boxes and the round transformations are inverses of each other,
and a block is its sixteen bytes. -/

namespace Sys2Proof.Machine

/-! ### Blocks and their bytes -/

@[simp] theorem Block.toBytes_length (b : Block) : b.toBytes.length = 16 := rfl

@[simp] theorem Block.ofBytes_toBytes (b : Block) : Block.ofBytes b.toBytes = b := rfl

theorem Block.toBytes_ofBytes (bs : List Byte) (h : bs.length = 16) : (Block.ofBytes bs).toBytes = bs := by
  match bs, h with
  | [_, _, _, _, _, _, _, _, _, _, _, _, _, _, _, _], _ => rfl

theorem Column.xor_cancel (a b : Column) : (a.xor b).xor b = a := by
  cases a; cases b
  simp [Column.xor]

/-- `AddRoundKey` undoes itself. -/
theorem Block.xor_cancel (a b : Block) : (a.xor b).xor b = a := by
  cases a; cases b
  simp [Block.xor, Column.xor_cancel]

@[simp] theorem addRoundKey_cancel (s rk : Block) : addRoundKey (addRoundKey s rk) rk = s := Block.xor_cancel s rk

/-! ### Multiplication in GF(2^8) -/

/-- The product is additive in its second factor. -/
theorem gmulBits_xor (n : Nat) (a x y : Byte) : gmulBits n a (x ^^^ y) = gmulBits n a x ^^^ gmulBits n a y := by
  induction n generalizing a x y with
  | zero => simp [gmulBits]
  | succ n ih =>
    have h1 : (x ^^^ y) >>> 1 = (x >>> 1) ^^^ (y >>> 1) := by
      apply BitVec.eq_of_getLsbD_eq; intro i _; simp
    rw [gmulBits, gmulBits, gmulBits, h1, ih, BitVec.getLsbD_xor]
    generalize gmulBits n (xtime a) (x >>> 1) = u
    generalize gmulBits n (xtime a) (y >>> 1) = v
    cases x.getLsbD 0 <;> cases y.getLsbD 0 <;> simp
    · rw [← BitVec.xor_assoc, ← BitVec.xor_assoc, BitVec.xor_comm u a]
    · rw [BitVec.xor_assoc]
    · rw [BitVec.xor_assoc, ← BitVec.xor_assoc u a v, BitVec.xor_comm u a, BitVec.xor_assoc a u v,
        ← BitVec.xor_assoc a a, BitVec.xor_self, BitVec.zero_xor]

theorem gmul_xor (c x y : Byte) : gmul c (x ^^^ y) = gmul c x ^^^ gmul c y := gmulBits_xor 8 c x y

/-! ### S-boxes -/

theorem invSbox_sbox (a : Byte) : invSbox (sbox a) = a := by
  revert a; decide +kernel

theorem sbox_invSbox (a : Byte) : sbox (invSbox a) = a := by
  revert a; decide +kernel

/-! ### The columns of `MixColumns` and `InvMixColumns` multiply to the identity -/

/-- `InvMixColumns` after `MixColumns`, on one byte: the coefficients of that byte in the four rows. -/
theorem invMix_mix_byte (x : Byte) :
    gmul 0x0e (gmul 2 x) ^^^ gmul 0x0b x ^^^ gmul 0x0d x ^^^ gmul 0x09 (gmul 3 x) = x ∧
    gmul 0x09 (gmul 2 x) ^^^ gmul 0x0e x ^^^ gmul 0x0b x ^^^ gmul 0x0d (gmul 3 x) = 0 ∧
    gmul 0x0d (gmul 2 x) ^^^ gmul 0x09 x ^^^ gmul 0x0e x ^^^ gmul 0x0b (gmul 3 x) = 0 ∧
    gmul 0x0b (gmul 2 x) ^^^ gmul 0x0d x ^^^ gmul 0x09 x ^^^ gmul 0x0e (gmul 3 x) = 0 := by
  revert x; decide +kernel

/-- `MixColumns` after `InvMixColumns`, on one byte. -/
theorem mix_invMix_byte (x : Byte) :
    gmul 2 (gmul 0x0e x) ^^^ gmul 3 (gmul 0x09 x) ^^^ gmul 0x0d x ^^^ gmul 0x0b x = x ∧
    gmul 0x0e x ^^^ gmul 2 (gmul 0x09 x) ^^^ gmul 3 (gmul 0x0d x) ^^^ gmul 0x0b x = 0 ∧
    gmul 0x0e x ^^^ gmul 0x09 x ^^^ gmul 2 (gmul 0x0d x) ^^^ gmul 3 (gmul 0x0b x) = 0 ∧
    gmul 3 (gmul 0x0e x) ^^^ gmul 0x09 x ^^^ gmul 0x0d x ^^^ gmul 2 (gmul 0x0b x) = 0 := by
  revert x; decide +kernel

/-- Sixteen terms of an exclusive or, regrouped by column. -/
theorem xor_transpose (a0 a1 a2 a3 b0 b1 b2 b3 c0 c1 c2 c3 d0 d1 d2 d3 : Byte) :
    (a0 ^^^ a1 ^^^ a2 ^^^ a3) ^^^ (b0 ^^^ b1 ^^^ b2 ^^^ b3) ^^^ (c0 ^^^ c1 ^^^ c2 ^^^ c3) ^^^ (d0 ^^^ d1 ^^^ d2 ^^^ d3)
    = (a0 ^^^ b0 ^^^ c0 ^^^ d0) ^^^ (a1 ^^^ b1 ^^^ c1 ^^^ d1) ^^^ (a2 ^^^ b2 ^^^ c2 ^^^ d2) ^^^ (a3 ^^^ b3 ^^^ c3 ^^^ d3) := by
  ac_rfl

/-- A cyclic move of four terms of an exclusive or. -/
theorem xor_rotate (a b c d : Byte) : a ^^^ b ^^^ c ^^^ d = b ^^^ c ^^^ d ^^^ a := by ac_rfl

theorem invMixColumn_mixColumn (c : Column) : invMixColumn (mixColumn c) = c := by
  obtain ⟨x0, x1, x2, x3⟩ := c
  obtain ⟨p0, q0, r0, s0⟩ := invMix_mix_byte x0
  obtain ⟨p1, q1, r1, s1⟩ := invMix_mix_byte x1
  obtain ⟨p2, q2, r2, s2⟩ := invMix_mix_byte x2
  obtain ⟨p3, q3, r3, s3⟩ := invMix_mix_byte x3
  rw [xor_rotate, xor_rotate, xor_rotate] at p1 q1 r1 s1
  rw [xor_rotate, xor_rotate] at p2 q2 r2 s2
  rw [xor_rotate] at p3 q3 r3 s3
  simp only [invMixColumn, mixColumn, gmul_xor, Column.mk.injEq]
  refine ⟨?_, ?_, ?_, ?_⟩ <;> rw [xor_transpose]
  · rw [p0, s1, r2, q3]; simp
  · rw [q0, p1, s2, r3]; simp
  · rw [r0, q1, p2, s3]; simp
  · rw [s0, r1, q2, p3]; simp

theorem mixColumn_invMixColumn (c : Column) : mixColumn (invMixColumn c) = c := by
  obtain ⟨x0, x1, x2, x3⟩ := c
  obtain ⟨p0, q0, r0, s0⟩ := mix_invMix_byte x0
  obtain ⟨p1, q1, r1, s1⟩ := mix_invMix_byte x1
  obtain ⟨p2, q2, r2, s2⟩ := mix_invMix_byte x2
  obtain ⟨p3, q3, r3, s3⟩ := mix_invMix_byte x3
  rw [xor_rotate, xor_rotate, xor_rotate] at p1 q1 r1 s1
  rw [xor_rotate, xor_rotate] at p2 q2 r2 s2
  rw [xor_rotate] at p3 q3 r3 s3
  simp only [invMixColumn, mixColumn, gmul_xor, Column.mk.injEq]
  refine ⟨?_, ?_, ?_, ?_⟩ <;> rw [xor_transpose]
  · rw [p0, s1, r2, q3]; simp
  · rw [q0, p1, s2, r3]; simp
  · rw [r0, q1, p2, s3]; simp
  · rw [s0, r1, q2, p3]; simp

/-! ### The round transformations undo each other -/

@[simp] theorem invMixColumns_mixColumns (b : Block) : invMixColumns (mixColumns b) = b := by
  simp [invMixColumns, mixColumns, Block.mapColumns, invMixColumn_mixColumn]

@[simp] theorem mixColumns_invMixColumns (b : Block) : mixColumns (invMixColumns b) = b := by
  simp [invMixColumns, mixColumns, Block.mapColumns, mixColumn_invMixColumn]

@[simp] theorem invSubBytes_subBytes (b : Block) : invSubBytes (subBytes b) = b := by
  simp [invSubBytes, subBytes, Block.mapColumns, Column.map, invSbox_sbox]

@[simp] theorem subBytes_invSubBytes (b : Block) : subBytes (invSubBytes b) = b := by
  simp [invSubBytes, subBytes, Block.mapColumns, Column.map, sbox_invSbox]

@[simp] theorem invShiftRows_shiftRows (b : Block) : invShiftRows (shiftRows b) = b := rfl

@[simp] theorem shiftRows_invShiftRows (b : Block) : shiftRows (invShiftRows b) = b := rfl

end Sys2Proof.Machine
end

