-- ==== Sys2Proof/Laws/State.lean ====
section
/-! SUPPORT. One lemma for each field of the state under each update of it. -/

namespace Sys2Proof.Machine

variable (s : State)

/-! ### `setStatus` -/

@[simp] theorem State.setStatus_err (e v : Bool) (c : BitVec 8) : (s.setStatus e v c).err = e := rfl
@[simp] theorem State.setStatus_valid (e v : Bool) (c : BitVec 8) : (s.setStatus e v c).valid = v := rfl
@[simp] theorem State.setStatus_errcode (e v : Bool) (c : BitVec 8) : (s.setStatus e v c).errcode = c := rfl
@[simp] theorem State.setStatus_ciph (e v : Bool) (c : BitVec 8) : (s.setStatus e v c).ciph = s.ciph := rfl
@[simp] theorem State.setStatus_len (e v : Bool) (c : BitVec 8) : (s.setStatus e v c).len = s.len := rfl
@[simp] theorem State.setStatus_devaddr (e v : Bool) (c : BitVec 8) : (s.setStatus e v c).devaddr = s.devaddr := rfl
@[simp] theorem State.setStatus_fcnt32 (e v : Bool) (c : BitVec 8) : (s.setStatus e v c).fcnt32 = s.fcnt32 := rfl
@[simp] theorem State.setStatus_fport (e v : Bool) (c : BitVec 8) : (s.setStatus e v c).fport = s.fport := rfl
@[simp] theorem State.setStatus_payoff (e v : Bool) (c : BitVec 8) : (s.setStatus e v c).payoff = s.payoff := rfl
@[simp] theorem State.setStatus_paylen (e v : Bool) (c : BitVec 8) : (s.setStatus e v c).paylen = s.paylen := rfl
@[simp] theorem State.setStatus_foff (e v : Bool) (c : BitVec 8) : (s.setStatus e v c).foff = s.foff := rfl
@[simp] theorem State.setStatus_val (e v : Bool) (c : BitVec 8) : (s.setStatus e v c).val = s.val := rfl
@[simp] theorem State.setStatus_mic (e v : Bool) (c : BitVec 8) : (s.setStatus e v c).mic = s.mic := rfl
@[simp] theorem State.setStatus_nwkskey (e v : Bool) (c : BitVec 8) : (s.setStatus e v c).nwkskey = s.nwkskey := rfl
@[simp] theorem State.setStatus_appskey (e v : Bool) (c : BitVec 8) : (s.setStatus e v c).appskey = s.appskey := rfl
@[simp] theorem State.setStatus_appkey (e v : Bool) (c : BitVec 8) : (s.setStatus e v c).appkey = s.appkey := rfl
@[simp] theorem State.setStatus_mem (e v : Bool) (c : BitVec 8) : (s.setStatus e v c).mem = s.mem := rfl
@[simp] theorem State.setStatus_draw (e v : Bool) (c : BitVec 8) : (s.setStatus e v c).draw = s.draw := rfl
@[simp] theorem State.setStatus_pending (e v : Bool) (c : BitVec 8) : (s.setStatus e v c).pending = s.pending := rfl
@[simp] theorem State.setStatus_answer (e v : Bool) (c : BitVec 8) : (s.setStatus e v c).answer = s.answer := rfl

/-! ### `setVal` -/

@[simp] theorem State.setVal_err (v : BitVec 64) : (s.setVal v).err = s.err := rfl
@[simp] theorem State.setVal_valid (v : BitVec 64) : (s.setVal v).valid = s.valid := rfl
@[simp] theorem State.setVal_errcode (v : BitVec 64) : (s.setVal v).errcode = s.errcode := rfl
@[simp] theorem State.setVal_ciph (v : BitVec 64) : (s.setVal v).ciph = s.ciph := rfl
@[simp] theorem State.setVal_len (v : BitVec 64) : (s.setVal v).len = s.len := rfl
@[simp] theorem State.setVal_devaddr (v : BitVec 64) : (s.setVal v).devaddr = s.devaddr := rfl
@[simp] theorem State.setVal_fcnt32 (v : BitVec 64) : (s.setVal v).fcnt32 = s.fcnt32 := rfl
@[simp] theorem State.setVal_fport (v : BitVec 64) : (s.setVal v).fport = s.fport := rfl
@[simp] theorem State.setVal_payoff (v : BitVec 64) : (s.setVal v).payoff = s.payoff := rfl
@[simp] theorem State.setVal_paylen (v : BitVec 64) : (s.setVal v).paylen = s.paylen := rfl
@[simp] theorem State.setVal_foff (v : BitVec 64) : (s.setVal v).foff = s.foff := rfl
@[simp] theorem State.setVal_val (v : BitVec 64) : (s.setVal v).val = v := rfl
@[simp] theorem State.setVal_mic (v : BitVec 64) : (s.setVal v).mic = s.mic := rfl
@[simp] theorem State.setVal_nwkskey (v : BitVec 64) : (s.setVal v).nwkskey = s.nwkskey := rfl
@[simp] theorem State.setVal_appskey (v : BitVec 64) : (s.setVal v).appskey = s.appskey := rfl
@[simp] theorem State.setVal_appkey (v : BitVec 64) : (s.setVal v).appkey = s.appkey := rfl
@[simp] theorem State.setVal_mem (v : BitVec 64) : (s.setVal v).mem = s.mem := rfl
@[simp] theorem State.setVal_draw (v : BitVec 64) : (s.setVal v).draw = s.draw := rfl
@[simp] theorem State.setVal_pending (v : BitVec 64) : (s.setVal v).pending = s.pending := rfl
@[simp] theorem State.setVal_answer (v : BitVec 64) : (s.setVal v).answer = s.answer := rfl

/-! ### `setMic` -/

@[simp] theorem State.setMic_err (v : BitVec 32) : (s.setMic v).err = s.err := rfl
@[simp] theorem State.setMic_valid (v : BitVec 32) : (s.setMic v).valid = s.valid := rfl
@[simp] theorem State.setMic_errcode (v : BitVec 32) : (s.setMic v).errcode = s.errcode := rfl
@[simp] theorem State.setMic_ciph (v : BitVec 32) : (s.setMic v).ciph = s.ciph := rfl
@[simp] theorem State.setMic_len (v : BitVec 32) : (s.setMic v).len = s.len := rfl
@[simp] theorem State.setMic_devaddr (v : BitVec 32) : (s.setMic v).devaddr = s.devaddr := rfl
@[simp] theorem State.setMic_fcnt32 (v : BitVec 32) : (s.setMic v).fcnt32 = s.fcnt32 := rfl
@[simp] theorem State.setMic_fport (v : BitVec 32) : (s.setMic v).fport = s.fport := rfl
@[simp] theorem State.setMic_payoff (v : BitVec 32) : (s.setMic v).payoff = s.payoff := rfl
@[simp] theorem State.setMic_paylen (v : BitVec 32) : (s.setMic v).paylen = s.paylen := rfl
@[simp] theorem State.setMic_foff (v : BitVec 32) : (s.setMic v).foff = s.foff := rfl
@[simp] theorem State.setMic_val (v : BitVec 32) : (s.setMic v).val = s.val := rfl
@[simp] theorem State.setMic_mic (v : BitVec 32) : (s.setMic v).mic = v := rfl
@[simp] theorem State.setMic_nwkskey (v : BitVec 32) : (s.setMic v).nwkskey = s.nwkskey := rfl
@[simp] theorem State.setMic_appskey (v : BitVec 32) : (s.setMic v).appskey = s.appskey := rfl
@[simp] theorem State.setMic_appkey (v : BitVec 32) : (s.setMic v).appkey = s.appkey := rfl
@[simp] theorem State.setMic_mem (v : BitVec 32) : (s.setMic v).mem = s.mem := rfl
@[simp] theorem State.setMic_draw (v : BitVec 32) : (s.setMic v).draw = s.draw := rfl
@[simp] theorem State.setMic_pending (v : BitVec 32) : (s.setMic v).pending = s.pending := rfl
@[simp] theorem State.setMic_answer (v : BitVec 32) : (s.setMic v).answer = s.answer := rfl

/-! ### `setCiph` -/

@[simp] theorem State.setCiph_err (b : Bool) : (s.setCiph b).err = s.err := rfl
@[simp] theorem State.setCiph_valid (b : Bool) : (s.setCiph b).valid = s.valid := rfl
@[simp] theorem State.setCiph_errcode (b : Bool) : (s.setCiph b).errcode = s.errcode := rfl
@[simp] theorem State.setCiph_ciph (b : Bool) : (s.setCiph b).ciph = b := rfl
@[simp] theorem State.setCiph_len (b : Bool) : (s.setCiph b).len = s.len := rfl
@[simp] theorem State.setCiph_devaddr (b : Bool) : (s.setCiph b).devaddr = s.devaddr := rfl
@[simp] theorem State.setCiph_fcnt32 (b : Bool) : (s.setCiph b).fcnt32 = s.fcnt32 := rfl
@[simp] theorem State.setCiph_fport (b : Bool) : (s.setCiph b).fport = s.fport := rfl
@[simp] theorem State.setCiph_payoff (b : Bool) : (s.setCiph b).payoff = s.payoff := rfl
@[simp] theorem State.setCiph_paylen (b : Bool) : (s.setCiph b).paylen = s.paylen := rfl
@[simp] theorem State.setCiph_foff (b : Bool) : (s.setCiph b).foff = s.foff := rfl
@[simp] theorem State.setCiph_val (b : Bool) : (s.setCiph b).val = s.val := rfl
@[simp] theorem State.setCiph_mic (b : Bool) : (s.setCiph b).mic = s.mic := rfl
@[simp] theorem State.setCiph_nwkskey (b : Bool) : (s.setCiph b).nwkskey = s.nwkskey := rfl
@[simp] theorem State.setCiph_appskey (b : Bool) : (s.setCiph b).appskey = s.appskey := rfl
@[simp] theorem State.setCiph_appkey (b : Bool) : (s.setCiph b).appkey = s.appkey := rfl
@[simp] theorem State.setCiph_mem (b : Bool) : (s.setCiph b).mem = s.mem := rfl
@[simp] theorem State.setCiph_draw (b : Bool) : (s.setCiph b).draw = s.draw := rfl
@[simp] theorem State.setCiph_pending (b : Bool) : (s.setCiph b).pending = s.pending := rfl
@[simp] theorem State.setCiph_answer (b : Bool) : (s.setCiph b).answer = s.answer := rfl

/-! ### `memWrite` -/

@[simp] theorem State.memWrite_err (a : Nat) (bs : List Byte) : (s.memWrite a bs).err = s.err := rfl
@[simp] theorem State.memWrite_valid (a : Nat) (bs : List Byte) : (s.memWrite a bs).valid = s.valid := rfl
@[simp] theorem State.memWrite_errcode (a : Nat) (bs : List Byte) : (s.memWrite a bs).errcode = s.errcode := rfl
@[simp] theorem State.memWrite_ciph (a : Nat) (bs : List Byte) : (s.memWrite a bs).ciph = s.ciph := rfl
@[simp] theorem State.memWrite_len (a : Nat) (bs : List Byte) : (s.memWrite a bs).len = s.len := rfl
@[simp] theorem State.memWrite_devaddr (a : Nat) (bs : List Byte) : (s.memWrite a bs).devaddr = s.devaddr := rfl
@[simp] theorem State.memWrite_fcnt32 (a : Nat) (bs : List Byte) : (s.memWrite a bs).fcnt32 = s.fcnt32 := rfl
@[simp] theorem State.memWrite_fport (a : Nat) (bs : List Byte) : (s.memWrite a bs).fport = s.fport := rfl
@[simp] theorem State.memWrite_payoff (a : Nat) (bs : List Byte) : (s.memWrite a bs).payoff = s.payoff := rfl
@[simp] theorem State.memWrite_paylen (a : Nat) (bs : List Byte) : (s.memWrite a bs).paylen = s.paylen := rfl
@[simp] theorem State.memWrite_foff (a : Nat) (bs : List Byte) : (s.memWrite a bs).foff = s.foff := rfl
@[simp] theorem State.memWrite_val (a : Nat) (bs : List Byte) : (s.memWrite a bs).val = s.val := rfl
@[simp] theorem State.memWrite_mic (a : Nat) (bs : List Byte) : (s.memWrite a bs).mic = s.mic := rfl
@[simp] theorem State.memWrite_nwkskey (a : Nat) (bs : List Byte) : (s.memWrite a bs).nwkskey = s.nwkskey := rfl
@[simp] theorem State.memWrite_appskey (a : Nat) (bs : List Byte) : (s.memWrite a bs).appskey = s.appskey := rfl
@[simp] theorem State.memWrite_appkey (a : Nat) (bs : List Byte) : (s.memWrite a bs).appkey = s.appkey := rfl
@[simp] theorem State.memWrite_mem (a : Nat) (bs : List Byte) : (s.memWrite a bs).mem = Memory.store s.mem a bs := rfl
@[simp] theorem State.memWrite_draw (a : Nat) (bs : List Byte) : (s.memWrite a bs).draw = s.draw := rfl
@[simp] theorem State.memWrite_pending (a : Nat) (bs : List Byte) : (s.memWrite a bs).pending = s.pending := rfl
@[simp] theorem State.memWrite_answer (a : Nat) (bs : List Byte) : (s.memWrite a bs).answer = s.answer := rfl

/-! ### `consume` -/

@[simp] theorem State.consume_err : (s.consume).err = s.err := rfl
@[simp] theorem State.consume_valid : (s.consume).valid = s.valid := rfl
@[simp] theorem State.consume_errcode : (s.consume).errcode = s.errcode := rfl
@[simp] theorem State.consume_ciph : (s.consume).ciph = s.ciph := rfl
@[simp] theorem State.consume_len : (s.consume).len = s.len := rfl
@[simp] theorem State.consume_devaddr : (s.consume).devaddr = s.devaddr := rfl
@[simp] theorem State.consume_fcnt32 : (s.consume).fcnt32 = s.fcnt32 := rfl
@[simp] theorem State.consume_fport : (s.consume).fport = s.fport := rfl
@[simp] theorem State.consume_payoff : (s.consume).payoff = s.payoff := rfl
@[simp] theorem State.consume_paylen : (s.consume).paylen = s.paylen := rfl
@[simp] theorem State.consume_foff : (s.consume).foff = s.foff := rfl
@[simp] theorem State.consume_val : (s.consume).val = s.val := rfl
@[simp] theorem State.consume_mic : (s.consume).mic = s.mic := rfl
@[simp] theorem State.consume_nwkskey : (s.consume).nwkskey = s.nwkskey := rfl
@[simp] theorem State.consume_appskey : (s.consume).appskey = s.appskey := rfl
@[simp] theorem State.consume_appkey : (s.consume).appkey = s.appkey := rfl
@[simp] theorem State.consume_mem : (s.consume).mem = s.mem := rfl
@[simp] theorem State.consume_draw : (s.consume).draw = s.draw := rfl
@[simp] theorem State.consume_pending : (s.consume).pending = s.pending.tail := rfl
@[simp] theorem State.consume_answer : (s.consume).answer = none := rfl

/-! ### `give` -/

@[simp] theorem State.give_err (v : Word) : (s.give v).err = s.err := rfl
@[simp] theorem State.give_valid (v : Word) : (s.give v).valid = s.valid := rfl
@[simp] theorem State.give_errcode (v : Word) : (s.give v).errcode = s.errcode := rfl
@[simp] theorem State.give_ciph (v : Word) : (s.give v).ciph = s.ciph := rfl
@[simp] theorem State.give_len (v : Word) : (s.give v).len = s.len := rfl
@[simp] theorem State.give_devaddr (v : Word) : (s.give v).devaddr = s.devaddr := rfl
@[simp] theorem State.give_fcnt32 (v : Word) : (s.give v).fcnt32 = s.fcnt32 := rfl
@[simp] theorem State.give_fport (v : Word) : (s.give v).fport = s.fport := rfl
@[simp] theorem State.give_payoff (v : Word) : (s.give v).payoff = s.payoff := rfl
@[simp] theorem State.give_paylen (v : Word) : (s.give v).paylen = s.paylen := rfl
@[simp] theorem State.give_foff (v : Word) : (s.give v).foff = s.foff := rfl
@[simp] theorem State.give_val (v : Word) : (s.give v).val = s.val := rfl
@[simp] theorem State.give_mic (v : Word) : (s.give v).mic = s.mic := rfl
@[simp] theorem State.give_nwkskey (v : Word) : (s.give v).nwkskey = s.nwkskey := rfl
@[simp] theorem State.give_appskey (v : Word) : (s.give v).appskey = s.appskey := rfl
@[simp] theorem State.give_appkey (v : Word) : (s.give v).appkey = s.appkey := rfl
@[simp] theorem State.give_mem (v : Word) : (s.give v).mem = s.mem := rfl
@[simp] theorem State.give_draw (v : Word) : (s.give v).draw = s.draw := rfl
@[simp] theorem State.give_pending (v : Word) : (s.give v).pending = s.pending := rfl
@[simp] theorem State.give_answer (v : Word) : (s.give v).answer = some v := rfl

/-! ### `raise` -/

@[simp] theorem State.raise_err (e : ErrCode) : (s.raise e).err = true := rfl
@[simp] theorem State.raise_valid (e : ErrCode) : (s.raise e).valid = false := rfl
@[simp] theorem State.raise_errcode (e : ErrCode) : (s.raise e).errcode = e.code := rfl
@[simp] theorem State.raise_ciph (e : ErrCode) : (s.raise e).ciph = s.ciph := rfl
@[simp] theorem State.raise_len (e : ErrCode) : (s.raise e).len = s.len := rfl
@[simp] theorem State.raise_devaddr (e : ErrCode) : (s.raise e).devaddr = s.devaddr := rfl
@[simp] theorem State.raise_fcnt32 (e : ErrCode) : (s.raise e).fcnt32 = s.fcnt32 := rfl
@[simp] theorem State.raise_fport (e : ErrCode) : (s.raise e).fport = s.fport := rfl
@[simp] theorem State.raise_payoff (e : ErrCode) : (s.raise e).payoff = s.payoff := rfl
@[simp] theorem State.raise_paylen (e : ErrCode) : (s.raise e).paylen = s.paylen := rfl
@[simp] theorem State.raise_foff (e : ErrCode) : (s.raise e).foff = s.foff := rfl
@[simp] theorem State.raise_val (e : ErrCode) : (s.raise e).val = s.val := rfl
@[simp] theorem State.raise_mic (e : ErrCode) : (s.raise e).mic = s.mic := rfl
@[simp] theorem State.raise_nwkskey (e : ErrCode) : (s.raise e).nwkskey = s.nwkskey := rfl
@[simp] theorem State.raise_appskey (e : ErrCode) : (s.raise e).appskey = s.appskey := rfl
@[simp] theorem State.raise_appkey (e : ErrCode) : (s.raise e).appkey = s.appkey := rfl
@[simp] theorem State.raise_mem (e : ErrCode) : (s.raise e).mem = s.mem := rfl
@[simp] theorem State.raise_draw (e : ErrCode) : (s.raise e).draw = s.draw := rfl
@[simp] theorem State.raise_pending (e : ErrCode) : (s.raise e).pending = s.pending := rfl
@[simp] theorem State.raise_answer (e : ErrCode) : (s.raise e).answer = s.answer := rfl

/-! ### `succeed` -/

@[simp] theorem State.succeed_err (v : Bool) : (s.succeed v).err = false := rfl
@[simp] theorem State.succeed_valid (v : Bool) : (s.succeed v).valid = v := rfl
@[simp] theorem State.succeed_errcode (v : Bool) : (s.succeed v).errcode = 0 := rfl
@[simp] theorem State.succeed_ciph (v : Bool) : (s.succeed v).ciph = s.ciph := rfl
@[simp] theorem State.succeed_len (v : Bool) : (s.succeed v).len = s.len := rfl
@[simp] theorem State.succeed_devaddr (v : Bool) : (s.succeed v).devaddr = s.devaddr := rfl
@[simp] theorem State.succeed_fcnt32 (v : Bool) : (s.succeed v).fcnt32 = s.fcnt32 := rfl
@[simp] theorem State.succeed_fport (v : Bool) : (s.succeed v).fport = s.fport := rfl
@[simp] theorem State.succeed_payoff (v : Bool) : (s.succeed v).payoff = s.payoff := rfl
@[simp] theorem State.succeed_paylen (v : Bool) : (s.succeed v).paylen = s.paylen := rfl
@[simp] theorem State.succeed_foff (v : Bool) : (s.succeed v).foff = s.foff := rfl
@[simp] theorem State.succeed_val (v : Bool) : (s.succeed v).val = s.val := rfl
@[simp] theorem State.succeed_mic (v : Bool) : (s.succeed v).mic = s.mic := rfl
@[simp] theorem State.succeed_nwkskey (v : Bool) : (s.succeed v).nwkskey = s.nwkskey := rfl
@[simp] theorem State.succeed_appskey (v : Bool) : (s.succeed v).appskey = s.appskey := rfl
@[simp] theorem State.succeed_appkey (v : Bool) : (s.succeed v).appkey = s.appkey := rfl
@[simp] theorem State.succeed_mem (v : Bool) : (s.succeed v).mem = s.mem := rfl
@[simp] theorem State.succeed_draw (v : Bool) : (s.succeed v).draw = s.draw := rfl
@[simp] theorem State.succeed_pending (v : Bool) : (s.succeed v).pending = s.pending := rfl
@[simp] theorem State.succeed_answer (v : Bool) : (s.succeed v).answer = s.answer := rfl

/-! ### `placeMic` -/

@[simp] theorem State.placeMic_err (n : Nat) (m : List Byte) : (s.placeMic n m).err = s.err := rfl
@[simp] theorem State.placeMic_valid (n : Nat) (m : List Byte) : (s.placeMic n m).valid = s.valid := rfl
@[simp] theorem State.placeMic_errcode (n : Nat) (m : List Byte) : (s.placeMic n m).errcode = s.errcode := rfl
@[simp] theorem State.placeMic_ciph (n : Nat) (m : List Byte) : (s.placeMic n m).ciph = s.ciph := rfl
@[simp] theorem State.placeMic_len (n : Nat) (m : List Byte) : (s.placeMic n m).len = s.len := rfl
@[simp] theorem State.placeMic_devaddr (n : Nat) (m : List Byte) : (s.placeMic n m).devaddr = s.devaddr := rfl
@[simp] theorem State.placeMic_fcnt32 (n : Nat) (m : List Byte) : (s.placeMic n m).fcnt32 = s.fcnt32 := rfl
@[simp] theorem State.placeMic_fport (n : Nat) (m : List Byte) : (s.placeMic n m).fport = s.fport := rfl
@[simp] theorem State.placeMic_payoff (n : Nat) (m : List Byte) : (s.placeMic n m).payoff = s.payoff := rfl
@[simp] theorem State.placeMic_paylen (n : Nat) (m : List Byte) : (s.placeMic n m).paylen = s.paylen := rfl
@[simp] theorem State.placeMic_foff (n : Nat) (m : List Byte) : (s.placeMic n m).foff = s.foff := rfl
@[simp] theorem State.placeMic_val (n : Nat) (m : List Byte) : (s.placeMic n m).val = s.val := rfl
@[simp] theorem State.placeMic_mic (n : Nat) (m : List Byte) : (s.placeMic n m).mic = BitVec.ofNat 32 (leValue m) := rfl
@[simp] theorem State.placeMic_nwkskey (n : Nat) (m : List Byte) : (s.placeMic n m).nwkskey = s.nwkskey := rfl
@[simp] theorem State.placeMic_appskey (n : Nat) (m : List Byte) : (s.placeMic n m).appskey = s.appskey := rfl
@[simp] theorem State.placeMic_appkey (n : Nat) (m : List Byte) : (s.placeMic n m).appkey = s.appkey := rfl
@[simp] theorem State.placeMic_mem (n : Nat) (m : List Byte) : (s.placeMic n m).mem = Memory.store s.mem n m := rfl
@[simp] theorem State.placeMic_draw (n : Nat) (m : List Byte) : (s.placeMic n m).draw = s.draw := rfl
@[simp] theorem State.placeMic_pending (n : Nat) (m : List Byte) : (s.placeMic n m).pending = s.pending := rfl
@[simp] theorem State.placeMic_answer (n : Nat) (m : List Byte) : (s.placeMic n m).answer = s.answer := rfl

end Sys2Proof.Machine
end

