-- ==== Sys2Proof/Laws/Memory.lean ====
section
/-! SUPPORT. The buffer: what a byte reads as after a write, that every operation keeps the canonical form, and that
the canonical form is one form. -/

namespace Sys2Proof.Machine

/-! ### One byte -/

@[simp] theorem Memory.find_insert_self (m : Memory) (a : Nat) (b : Byte) :
    Memory.find (Memory.insert m a b) a = some b := by
  induction m with
  | nil => simp [Memory.insert, Memory.find]
  | cons c m ih =>
    obtain ⟨k, c⟩ := c
    rw [Memory.insert]
    split
    · simp [Memory.find]
    · split
      · simp [Memory.find]
      · next h1 h2 => simpa [Memory.find, Ne.symm h2] using ih

theorem Memory.find_insert_ne (m : Memory) (a x : Nat) (b : Byte) (h : x ≠ a) :
    Memory.find (Memory.insert m a b) x = Memory.find m x := by
  induction m with
  | nil => simp [Memory.insert, Memory.find, Ne.symm h]
  | cons c m ih =>
    obtain ⟨k, c⟩ := c
    rw [Memory.insert]
    split
    · simp [Memory.find, Ne.symm h]
    · split
      · next _ h2 => subst h2; simp [Memory.find, Ne.symm h]
      · simp only [Memory.find, ih]

theorem Memory.mem_insert (m : Memory) (a : Nat) (b : Byte) (c : Host.Cell) (h : c ∈ Memory.insert m a b) :
    c = (a, b) ∨ c ∈ m := by
  induction m with
  | nil => simpa [Memory.insert] using h
  | cons d m ih =>
    obtain ⟨k, d⟩ := d
    rw [Memory.insert] at h
    split at h
    · simpa using h
    · split at h
      · rcases List.mem_cons.1 h with h | h
        · exact .inl h
        · exact .inr (List.mem_cons_of_mem _ h)
      · rcases List.mem_cons.1 h with h | h
        · exact .inr (h ▸ List.mem_cons_self)
        · exact (ih h).imp_right (List.mem_cons_of_mem _)

/-- Writing one byte of `BUF` keeps the canonical form. -/
theorem Memory.wf_insert (m : Memory) (a : Nat) (b : Byte) (hm : Memory.wf m) (ha : a < Config.bufSize) :
    Memory.wf (Memory.insert m a b) := by
  refine ⟨?_, fun c hc => ?_⟩
  · have h := hm.1
    clear hm
    induction m with
    | nil => simp [Memory.insert]
    | cons d m ih =>
      obtain ⟨k, d⟩ := d
      obtain ⟨h1, h2⟩ := List.pairwise_cons.1 h
      rw [Memory.insert]
      split
      · next hak =>
        refine List.pairwise_cons.2 ⟨fun c hc => ?_, h⟩
        rcases List.mem_cons.1 hc with rfl | hc
        · exact hak
        · exact Nat.lt_trans hak (h1 c hc)
      · split
        · next _ hak => exact List.pairwise_cons.2 ⟨fun c hc => hak ▸ h1 c hc, h2⟩
        · next hlt hne =>
          refine List.pairwise_cons.2 ⟨fun c hc => ?_, ih h2⟩
          rcases Memory.mem_insert m a b c hc with rfl | hc
          · exact Nat.lt_of_le_of_ne (Nat.le_of_not_lt hlt) (Ne.symm hne)
          · exact h1 c hc
  · rcases Memory.mem_insert m a b c hc with rfl | hc
    · exact ha
    · exact hm.2 c hc

/-! ### Byte strings -/

theorem Memory.find_store_outside (m : Memory) (a x : Nat) (bs : List Byte) (h : x < a ∨ a + bs.length ≤ x) :
    Memory.find (Memory.store m a bs) x = Memory.find m x := by
  induction bs generalizing m a with
  | nil => rfl
  | cons b bs ih =>
    simp only [List.length_cons] at h
    rw [Memory.store, ih _ _ (by omega), Memory.find_insert_ne _ _ _ _ (by omega)]

theorem Memory.find_store_inside (m : Memory) (a k : Nat) (bs : List Byte) (h : k < bs.length) :
    Memory.find (Memory.store m a bs) (a + k) = some (bs.getD k 0) := by
  induction bs generalizing m a k with
  | nil => simp at h
  | cons b bs ih =>
    rw [Memory.store]
    cases k with
    | zero => rw [Memory.find_store_outside _ _ _ _ (by omega)]; simp
    | succ k =>
      have h1 : a + (k + 1) = a + 1 + k := by omega
      rw [h1, ih _ _ _ (by simpa using h), List.getD_cons_succ]

/-- `MemWrite` within `BUF` keeps the canonical form. -/
theorem Memory.wf_store (m : Memory) (a : Nat) (bs : List Byte) (hm : Memory.wf m)
    (h : a + bs.length ≤ Config.bufSize) : Memory.wf (Memory.store m a bs) := by
  induction bs generalizing m a with
  | nil => exact hm
  | cons b bs ih =>
    simp only [List.length_cons] at h
    exact ih _ _ (Memory.wf_insert m a b hm (by omega)) (by omega)

theorem Memory.find_none_of_lt (m : Memory) (a : Nat) (h : ∀ c ∈ m, a < c.1) : Memory.find m a = none := by
  induction m with
  | nil => rfl
  | cons c m ih =>
    obtain ⟨k, c⟩ := c
    have hk : a < k := h (k, c) List.mem_cons_self
    rw [Memory.find, if_neg (by omega)]
    exact ih fun d hd => h d (List.mem_cons_of_mem _ hd)

/-- The canonical form is one form: two buffers that give every location the same written byte are equal. -/
theorem Memory.ext_of_wf (m m' : Memory) (hm : Memory.wf m) (hm' : Memory.wf m')
    (h : ∀ a, Memory.find m a = Memory.find m' a) : m = m' := by
  have hp := hm.1
  have hp' := hm'.1
  clear hm hm'
  induction m generalizing m' with
  | nil =>
    cases m' with
    | nil => rfl
    | cons c m' => simpa [Memory.find] using h c.1
  | cons c m ih =>
    obtain ⟨k, c⟩ := c
    obtain ⟨h1, h2⟩ := List.pairwise_cons.1 hp
    cases m' with
    | nil => simpa [Memory.find] using h k
    | cons d m' =>
      obtain ⟨j, d⟩ := d
      obtain ⟨h1', h2'⟩ := List.pairwise_cons.1 hp'
      have hkj : k = j := by
        rcases Nat.lt_trichotomy k j with hlt | heq | hlt
        · have h3 := h k
          rw [Memory.find, if_pos rfl, Memory.find_none_of_lt ((j, d) :: m') k (fun e he => by
            rcases List.mem_cons.1 he with rfl | he
            · exact hlt
            · exact Nat.lt_trans hlt (h1' e he))] at h3
          cases h3
        · exact heq
        · have h3 := h j
          rw [Memory.find_none_of_lt ((k, c) :: m) j (fun e he => by
            rcases List.mem_cons.1 he with rfl | he
            · exact hlt
            · exact Nat.lt_trans hlt (h1 e he)), Memory.find, if_pos rfl] at h3
          cases h3
      subst hkj
      have hcd : c = d := by simpa [Memory.find] using h k
      subst hcd
      have hrest : ∀ a, Memory.find m a = Memory.find m' a := by
        intro a
        by_cases hak : k = a
        · subst hak
          rw [Memory.find_none_of_lt m k h1, Memory.find_none_of_lt m' k h1']
        · simpa [Memory.find, hak] using h a
      rw [ih m' hrest h2 h2']

/-! ### `BUF[a]`, `MemRead` and `MemWrite` -/

/-- `BUF[a]` is a function of the buffer's two fields. -/
theorem State.bufByte_congr {s t : State} {a b : Nat} (hm : Memory.find t.mem a = Memory.find s.mem b)
    (hd : t.draw = s.draw) (hab : a = b) : t.bufByte a = s.bufByte b := by
  unfold State.bufByte
  rw [hm, hd, hab]

@[simp] theorem State.bufByte_setStatus (s : State) (e v : Bool) (c : BitVec 8) (a : Nat) :
    (s.setStatus e v c).bufByte a = s.bufByte a := rfl
@[simp] theorem State.bufByte_setVal (s : State) (v : BitVec 64) (a : Nat) :
    (s.setVal v).bufByte a = s.bufByte a := rfl
@[simp] theorem State.bufByte_setMic (s : State) (v : BitVec 32) (a : Nat) :
    (s.setMic v).bufByte a = s.bufByte a := rfl
@[simp] theorem State.bufByte_setCiph (s : State) (b : Bool) (a : Nat) :
    (s.setCiph b).bufByte a = s.bufByte a := rfl
@[simp] theorem State.bufByte_raise (s : State) (e : ErrCode) (a : Nat) :
    (s.raise e).bufByte a = s.bufByte a := rfl
@[simp] theorem State.bufByte_succeed (s : State) (v : Bool) (a : Nat) :
    (s.succeed v).bufByte a = s.bufByte a := rfl
@[simp] theorem State.bufByte_consume (s : State) (a : Nat) : s.consume.bufByte a = s.bufByte a := rfl
@[simp] theorem State.bufByte_give (s : State) (v : Word) (a : Nat) : (s.give v).bufByte a = s.bufByte a := rfl

/-- A byte outside the range of a `MemWrite` reads as before. -/
theorem State.bufByte_memWrite_outside (s : State) (a x : Nat) (bs : List Byte) (h : x < a ∨ a + bs.length ≤ x) :
    (s.memWrite a bs).bufByte x = s.bufByte x :=
  State.bufByte_congr (Memory.find_store_outside _ _ _ _ h) rfl rfl

/-- A byte inside the range of a `MemWrite` reads as written. -/
theorem State.bufByte_memWrite_inside (s : State) (a k : Nat) (bs : List Byte) (h : k < bs.length) :
    (s.memWrite a bs).bufByte (a + k) = bs.getD k 0 := by
  unfold State.bufByte
  rw [State.memWrite_mem, Memory.find_store_inside _ _ _ _ h]

@[simp] theorem State.memRead_length (s : State) (a n : Nat) : (s.memRead a n).length = n := by
  simp [State.memRead]

@[simp] theorem State.memRead_zero (s : State) (a : Nat) : s.memRead a 0 = [] := rfl

theorem State.memRead_getD (s : State) (a n k : Nat) (h : k < n) : (s.memRead a n).getD k 0 = s.bufByte (a + k) := by
  simp [State.memRead, h]

/-- Two reads are equal when the bytes are. -/
theorem State.memRead_congr {s t : State} {a b n : Nat} (h : ∀ k < n, t.bufByte (a + k) = s.bufByte (b + k)) :
    t.memRead a n = s.memRead b n := by
  unfold State.memRead
  exact List.map_congr_left fun k hk => h k (List.mem_range.1 hk)

/-- A read of what a `MemWrite` has just written. -/
theorem State.memRead_memWrite_same (s : State) (a : Nat) (bs : List Byte) :
    (s.memWrite a bs).memRead a bs.length = bs := by
  apply List.ext_getElem (by simp)
  intro k h1 h2
  have h := State.memRead_getD (s.memWrite a bs) a bs.length k h2
  rw [State.bufByte_memWrite_inside s a k bs h2] at h
  simpa [h1, h2] using h

/-- A read apart from a `MemWrite`. -/
theorem State.memRead_memWrite_apart (s : State) (a b n : Nat) (bs : List Byte)
    (h : b + n ≤ a ∨ a + bs.length ≤ b) : (s.memWrite a bs).memRead b n = s.memRead b n :=
  State.memRead_congr fun k hk => State.bufByte_memWrite_outside s a (b + k) bs (by omega)

/-- A read starting inside a read. -/
theorem State.memRead_drop_take (s : State) (a n i l : Nat) (h : i + l ≤ n) :
    ((s.memRead a n).drop i).take l = s.memRead (a + i) l := by
  apply List.ext_getElem (by simp; omega)
  intro k h1 h2
  simp [State.memRead, Nat.add_assoc]

end Sys2Proof.Machine
end

