-- ==== Sys2Proof/Laws/Ciphers.lean ====
section
/-! SUPPORT. Lengths and bytes of what the ciphers and the MIC compute (R171, R281, R311). -/

namespace Sys2Proof.Machine

/-! ### The MIC -/

@[simp] theorem micOf_length (k : Block) (m : List Byte) : (micOf k m).length = 4 := by simp [micOf]

/-- Byte `j` of a MIC is byte `j` of the tag (R172). -/
theorem micOf_getD (k : BitVec 128) (m : List Byte) (j : Nat) (h : j < 4) :
    (micOf (keyBlock k) m).getD j 0 = tagByte k m j := by
  simp only [micOf, tagByte, List.getD_eq_getElem?_getD, List.getElem?_take, if_pos h]

theorem State.dataMic_eq (s : State) (d : Dir) : s.dataMic d = micOf (keyBlock s.nwkskey) (s.dataInput d) := rfl

theorem State.micMatches_eq (s : State) (n : Nat) (k : BitVec 128) (m : List Byte) :
    s.micMatches n (micOf (keyBlock k) m) = micEqual s k m n := by
  rw [Bool.eq_iff_iff, State.micMatches, ctEqual_iff, micEqual, decide_eq_true_iff]
  refine forall₂_congr fun j hj => ?_
  rw [micOf_getD k m j hj, State.memRead_getD s n 4 j hj]

/-- After a `*_SET` the MIC placed in the frame is the MIC computed. -/
theorem State.micMatches_placeMic (s t : State) (n : Nat) (mic : List Byte) (h : mic.length = 4)
    (hm : t.mem = (s.placeMic n mic).mem) (hd : t.draw = s.draw) : t.micMatches n mic = true := by
  rw [State.micMatches, ctEqual_iff]
  intro j hj
  rw [State.memRead_getD t n 4 j hj, ← State.bufByte_memWrite_inside s n j mic (by omega)]
  exact State.bufByte_congr (by rw [hm]; rfl) hd.symm rfl

theorem length_flatten_blocks (blocks : List (List Byte)) (h : ∀ b ∈ blocks, b.length = 16) :
    blocks.flatten.length = 16 * blocks.length := by
  induction blocks with
  | nil => rfl
  | cons b bs ih =>
    rw [List.flatten_cons, List.length_append, h b (by simp), ih fun c hc => h c (by simp [hc]), List.length_cons]
    omega

/-- Full blocks in front of anything are chained in order (R171). -/
theorem cmacChain_flatten (k : Block) (blocks : List (List Byte)) (rest : List Byte)
    (h : ∀ b ∈ blocks, b.length = 16) :
    cmacChain k (blocks.flatten ++ rest) blocks.length
      = blocks.foldl (fun x b => aesEnc k (x.xor (Block.ofBytes b))) Block.zero := by
  induction blocks using List.reverseRecOn generalizing rest with
  | nil => rfl
  | append_singleton bs b ih =>
    have hb : b.length = 16 := h b (by simp)
    have hbs : ∀ c ∈ bs, c.length = 16 := fun c hc => h c (by simp [hc])
    have hlen : bs.flatten.length = 16 * bs.length := length_flatten_blocks bs hbs
    have hsplit : (bs ++ [b]).flatten ++ rest = bs.flatten ++ (b ++ rest) := by simp
    rw [hsplit, List.length_append, List.length_singleton, cmacChain, ih (b ++ rest) hbs, List.foldl_append,
      List.drop_left' hlen, List.take_left' hb]
    rfl

/-! ### The keystream -/

/-- The index byte of every index R280 defines. -/
theorem indexByte_of_lt {i : Nat} (h : i < 256) : indexByte i = BitVec.ofNat 8 i := if_pos h

@[simp] theorem keystream_length (k : Block) (d : Dir) (a f : Word) (m : Nat) :
    (keystream k d a f m).length = 16 * m := by
  induction m with
  | zero => rfl
  | succ m ih =>
    rw [keystream] at ih ⊢
    rw [List.range_succ, List.flatMap_append, List.length_append, ih]
    simp
    omega

/-- Byte `j` of the keystream is byte `j mod 16` of block `floor(j / 16) + 1` (R281). -/
theorem keystream_getD (k : Block) (d : Dir) (a f : Word) (m j : Nat) (h : j < 16 * m) :
    (keystream k d a f m).getD j 0 = (keystreamBlock k d a f (j / 16 + 1)).toBytes.getD (j % 16) 0 := by
  induction m with
  | zero => omega
  | succ m ih =>
    have hlen : (keystream k d a f m).length = 16 * m := keystream_length k d a f m
    have hsplit : keystream k d a f (m + 1) = keystream k d a f m ++ (keystreamBlock k d a f (m + 1)).toBytes := by
      simp [keystream, List.range_succ]
    rw [hsplit]
    by_cases hj : j < 16 * m
    · rw [List.getD_append _ _ _ _ (by omega), ih hj]
    · have h1 : j / 16 = m := by omega
      have h2 : j - 16 * m = j % 16 := by omega
      rw [List.getD_append_right _ _ _ _ (by omega), hlen, h1, h2]

theorem blockCount_covers (n : Nat) : n ≤ 16 * blockCount n := by rw [blockCount]; omega

@[simp] theorem ctrx_length (k : Block) (d : Dir) (a f : Word) (p : List Byte) : (ctrx k d a f p).length = p.length := by
  have h := blockCount_covers p.length
  rw [ctrx, xorBytes_length]
  simp
  omega

/-- Byte `j` of `CTRX` is the byte of the string with the byte of the keystream (R281). -/
theorem ctrx_getD (k : Block) (d : Dir) (a f : Word) (p : List Byte) (j : Nat) (h : j < p.length) :
    (ctrx k d a f p).getD j 0
      = p.getD j 0 ^^^ (keystreamBlock k d a f (j / 16 + 1)).toBytes.getD (j % 16) 0 := by
  have hc := blockCount_covers p.length
  have ht : ((keystream k d a f (blockCount p.length)).take p.length).getD j 0
      = (keystream k d a f (blockCount p.length)).getD j 0 := by
    simp only [List.getD_eq_getElem?_getD, List.getElem?_take, if_pos h]
  rw [ctrx, xorBytes_getD _ _ _ h (by simp; omega), ht, keystream_getD _ _ _ _ _ _ (by omega)]

/-! ### ECB -/

@[simp] theorem ecb_length (f : Block → Block) (m : Nat) (x : List Byte) : (ecb f m x).length = 16 * m := by
  induction m generalizing x with
  | zero => rfl
  | succ m ih => simp [ecb, ih]; omega

/-- Byte `j` of an ECB region is byte `j mod 16` of its own block, whatever the other blocks hold (R311). -/
theorem ecb_getD (f : Block → Block) (m j : Nat) (x : List Byte) (h : j < 16 * m) :
    (ecb f m x).getD j 0 = (f (Block.ofBytes ((x.drop (16 * (j / 16))).take 16))).toBytes.getD (j % 16) 0 := by
  induction m generalizing x j with
  | zero => omega
  | succ m ih =>
    rw [ecb]
    by_cases hj : j < 16
    · have h1 : j / 16 = 0 := by omega
      have h2 : j % 16 = j := by omega
      rw [List.getD_append _ _ _ _ (by simpa using hj), h1, h2]
      simp
    · have h1 : 16 + 16 * ((j - 16) / 16) = 16 * (j / 16) := by omega
      have h2 : (j - 16) % 16 = j % 16 := by omega
      rw [List.getD_append_right _ _ _ _ (by simpa using hj), Block.toBytes_length, ih _ _ (by omega),
        List.drop_drop, h1, h2]

/-- A block function and its inverse, block by block, restore the string (R314). -/
theorem ecb_inverse (f g : Block → Block) (hfg : ∀ b, g (f b) = b) (m : Nat) (x : List Byte)
    (h : x.length = 16 * m) : ecb g m (ecb f m x) = x := by
  induction m generalizing x with
  | zero =>
    have : x = [] := List.eq_nil_of_length_eq_zero (by omega)
    simp [ecb, this]
  | succ m ih =>
    have h16 : (x.take 16).length = 16 := by simp; omega
    rw [ecb, ecb, List.take_left' (by simp), List.drop_left' (by simp), Block.ofBytes_toBytes, hfg,
      ih _ (by simp; omega), Block.toBytes_ofBytes _ h16, List.take_append_drop]

end Sys2Proof.Machine
end

