-- ==== Sys2Proof/Laws/Commands.lean ====
section
/-! SUPPORT. What a command can do, said once: `exec_cases`. Every claim about all commands goes through it. -/

namespace Sys2Proof.Machine

/-! ### The two ends of a command -/

/-- A command always ends in a next state (R343, R359). -/
theorem finish_isNext (s : State) (r : Result) : ∃ t, finish s r = .next t := by
  cases r <;> exact ⟨_, rfl⟩

/-- Everything `finish` can do: the success update, or the error path. -/
theorem finish_cases {s t : State} {r : Result} (h : finish s r = .next t) :
    (∃ u v, r = .done u v ∧ t = u.succeed v) ∨ (∃ e, r = .raised e ∧ t = s.raise e) := by
  cases r with
  | done u v => exact .inl ⟨u, v, rfl, by simpa [finish] using h.symm⟩
  | raised e => exact .inr ⟨e, rfl, by simpa [finish] using h.symm⟩

@[simp] theorem finish_done (s u : State) (v : Bool) : finish s (.done u v) = .next (u.succeed v) := rfl
@[simp] theorem finish_raised (s : State) (e : ErrCode) : finish s (.raised e) = .next (s.raise e) := rfl

/-! ### The checks -/

theorem pastBuffer_iff (a n : Nat) : pastBuffer a n = true ↔ 512 < a + n := decide_eq_true_iff

theorem State.joinRequestSize_iff (s : State) : s.joinRequestSize = true ↔ s.len.toNat = 19 := by
  rw [State.joinRequestSize, beq_iff_eq, ← BitVec.toNat_inj]; rfl

theorem State.joinAcceptSize_iff (s : State) : s.joinAcceptSize = true ↔ s.len.toNat = 13 ∨ s.len.toNat = 29 := by
  rw [State.joinAcceptSize, Bool.or_eq_true, beq_iff_eq, beq_iff_eq, ← BitVec.toNat_inj, ← BitVec.toNat_inj]; rfl

/-- `LEN + 4 <= 259`, so the MIC of a data frame always fits (R48). -/
theorem State.len_lt (s : State) : s.len.toNat < 256 := s.len.isLt

/-- The region of a JoinAccept is one block or two (R310). -/
theorem joinAccept_region {s : State} (h : s.joinAcceptSize = true) :
    16 * blockCount (s.len.toNat + 3) = s.len.toNat + 3 := by
  rcases s.joinAcceptSize_iff.1 h with h | h <;> rw [h] <;> rfl

/-! ### Field codec -/

theorem encodeField_bounds {n u : Nat} {s : State} (h : 512 < s.foff.toNat + n) :
    encodeField n u s = .raised .bounds := by
  rw [encodeField, if_pos ((pastBuffer_iff _ _).2 h)]

theorem encodeField_argument {n u : Nat} {s : State} (h : s.foff.toNat + n ≤ 512) (hu : 2 ^ (8 * n) ≤ u) :
    encodeField n u s = .raised .invalidArgument := by
  rw [encodeField, if_neg (by rw [pastBuffer_iff]; omega), if_pos hu]

theorem encodeField_done {n u : Nat} {s : State} (h : s.foff.toNat + n ≤ 512) (hu : u < 2 ^ (8 * n)) :
    encodeField n u s = .done (s.memWrite s.foff.toNat (leBytes n u)) false := by
  rw [encodeField, if_neg (by rw [pastBuffer_iff]; omega), if_neg (by omega)]

/-- Everything `encodeField` can do (R201). -/
theorem encodeField_cases (n u : Nat) (s : State) :
    (512 < s.foff.toNat + n ∧ encodeField n u s = .raised .bounds) ∨
    (s.foff.toNat + n ≤ 512 ∧ 2 ^ (8 * n) ≤ u ∧ encodeField n u s = .raised .invalidArgument) ∨
    (s.foff.toNat + n ≤ 512 ∧ u < 2 ^ (8 * n) ∧
      encodeField n u s = .done (s.memWrite s.foff.toNat (leBytes n u)) false) := by
  rcases Nat.lt_or_ge 512 (s.foff.toNat + n) with h | h
  · exact .inl ⟨h, encodeField_bounds h⟩
  · rcases Nat.lt_or_ge u (2 ^ (8 * n)) with hu | hu
    · exact .inr (.inr ⟨h, hu, encodeField_done h hu⟩)
    · exact .inr (.inl ⟨h, hu, encodeField_argument h hu⟩)

/-- Everything `decodeField` can do (R201). -/
theorem decodeField_cases (n unit : Nat) (s : State) :
    (512 < s.foff.toNat + n ∧ decodeField n unit s = .raised .bounds) ∨
    (s.foff.toNat + n ≤ 512 ∧
      decodeField n unit s
        = .done (s.setVal (BitVec.ofNat 64 (unit * leValue (s.memRead s.foff.toNat n)))) false) := by
  rcases Nat.lt_or_ge 512 (s.foff.toNat + n) with h | h
  · exact .inl ⟨h, by rw [decodeField, if_pos ((pastBuffer_iff _ _).2 h)]⟩
  · exact .inr ⟨h, by rw [decodeField, if_neg (by rw [pastBuffer_iff]; omega)]⟩

/-! ### What a command can do -/

/-- The success update of a command, by what it writes (the "Writes" column of R126). -/
inductive Effect (i : Instr) (s : State) : State → Bool → Prop
  /-- A `*_CHK` writes nothing of its own. -/
  | check (v : Bool) (hi : isCheck i = true) : Effect i s s v
  /-- A `*_SET` writes four bytes of `BUF` and `MIC`. -/
  | set (n : Nat) (mic : List Byte) (hi : writesMic i = true) (hr : writtenRange i s = (n, mic.length))
      (hn : n + mic.length ≤ 512) : Effect i s (s.placeMic n mic) false
  /-- A cipher command writes a range of `BUF` and `CTRL.CIPH`. -/
  | cipher (a : Nat) (bs : List Byte) (c : Bool) (hi : writesCiph i = true) (hr : writtenRange i s = (a, bs.length))
      (hn : a + bs.length ≤ 512) : Effect i s ((s.memWrite a bs).setCiph c) false
  /-- An encoder writes its field. -/
  | encode (a : Nat) (bs : List Byte) (hi : isCodec i = true) (hr : writtenRange i s = (a, bs.length))
      (hn : a + bs.length ≤ 512) : Effect i s (s.memWrite a bs) false
  /-- A decoder writes `VAL`. -/
  | decode (v : BitVec 64) (hi : writesVal i = true) : Effect i s (s.setVal v) false

/-- Everything a command can do: it raises one of four codes and changes `STATUS` alone, or it makes its success
update and ends without error. -/
theorem exec_cases (i : Instr) (s : State) :
    (∃ e, exec i s = .next (s.raise e) ∧
      (e = .sizeMismatch ∨ e = .bounds ∨ e = .state ∨ e = .invalidArgument)) ∨
    (∃ u v, exec i s = .next (u.succeed v) ∧ Effect i s u v) := by
  have enc : ∀ i n u, (exec i s = finish s (encodeField n u s)) → isCodec i = true →
      writtenRange i s = (s.foff.toNat, n) → (∃ e, exec i s = .next (s.raise e) ∧
        (e = .sizeMismatch ∨ e = .bounds ∨ e = .state ∨ e = .invalidArgument)) ∨
        (∃ u v, exec i s = .next (u.succeed v) ∧ Effect i s u v) := by
    intro i n u h hi hr
    rcases encodeField_cases n u s with ⟨_, he⟩ | ⟨_, _, he⟩ | ⟨hb, _, he⟩
    · exact .inl ⟨.bounds, by rw [h, he, finish_raised], by simp⟩
    · exact .inl ⟨.invalidArgument, by rw [h, he, finish_raised], by simp⟩
    · exact .inr ⟨_, false, by rw [h, he, finish_done], .encode _ _ hi (by simpa using hr) (by simpa using hb)⟩
  have dec : ∀ i n unit, (exec i s = finish s (decodeField n unit s)) → writesVal i = true →
      (∃ e, exec i s = .next (s.raise e) ∧
        (e = .sizeMismatch ∨ e = .bounds ∨ e = .state ∨ e = .invalidArgument)) ∨
        (∃ u v, exec i s = .next (u.succeed v) ∧ Effect i s u v) := by
    intro i n unit h hi
    rcases decodeField_cases n unit s with ⟨_, he⟩ | ⟨_, he⟩
    · exact .inl ⟨.bounds, by rw [h, he, finish_raised], by simp⟩
    · exact .inr ⟨_, false, by rw [h, he, finish_done], .decode _ hi⟩
  have hlen := s.len_lt
  cases i with
  | micDataSet d =>
    exact .inr ⟨_, false, rfl, .set _ _ rfl (by simp [writtenRange, State.dataMic]) (by simp [State.dataMic]; omega)⟩
  | micDataChk d => exact .inr ⟨s, _, rfl, .check _ rfl⟩
  | micJrSet =>
    rw [exec, execMicJrSet]
    split
    · exact .inr ⟨_, false, rfl, .set _ _ rfl (by simp [writtenRange, State.joinMic]) (by simp [State.joinMic])⟩
    · exact .inl ⟨_, rfl, by simp⟩
  | micJrChk =>
    rw [exec, execMicJrChk]
    split
    · exact .inr ⟨s, _, rfl, .check _ rfl⟩
    · exact .inl ⟨_, rfl, by simp⟩
  | micJaSet =>
    rw [exec, execMicJaSet]
    split
    · split
      · exact .inl ⟨_, rfl, by simp⟩
      · exact .inr ⟨_, false, rfl, .set _ _ rfl (by simp [writtenRange, State.joinMic]) (by simp [State.joinMic]; omega)⟩
    · exact .inl ⟨_, rfl, by simp⟩
  | micJaChk =>
    rw [exec, execMicJaChk]
    split
    · split <;> exact .inr ⟨s, _, rfl, .check _ rfl⟩
    · exact .inl ⟨_, rfl, by simp⟩
  | ctrEnc d =>
    rw [exec, execCtrEnc]
    split
    · exact .inl ⟨_, rfl, by simp⟩
    · next hb =>
      rw [pastBuffer_iff] at hb
      split
      · exact .inl ⟨_, rfl, by simp⟩
      · exact .inr ⟨_, false, rfl, .cipher _ _ _ rfl (by simp [writtenRange]) (by simp; omega)⟩
  | ctrDec d =>
    rw [exec, execCtrDec]
    split
    · exact .inl ⟨_, rfl, by simp⟩
    · next hb =>
      rw [pastBuffer_iff] at hb
      split
      · exact .inr ⟨_, false, rfl, .cipher _ _ _ rfl (by simp [writtenRange]) (by simp; omega)⟩
      · exact .inl ⟨_, rfl, by simp⟩
  | jaEnc =>
    rw [exec, execJaEnc]
    split
    · next hj =>
      have hr := joinAccept_region hj
      split
      · exact .inl ⟨_, rfl, by simp⟩
      · exact .inr ⟨_, false, rfl, .cipher _ _ _ rfl (by simp [writtenRange, hr]) (by simp [hr]; omega)⟩
    · exact .inl ⟨_, rfl, by simp⟩
  | jaDec =>
    rw [exec, execJaDec]
    split
    · next hj =>
      have hr := joinAccept_region hj
      split
      · exact .inr ⟨_, false, rfl, .cipher _ _ _ rfl (by simp [writtenRange, hr]) (by simp [hr]; omega)⟩
      · exact .inl ⟨_, rfl, by simp⟩
    · exact .inl ⟨_, rfl, by simp⟩
  | encDevaddr => exact enc _ _ _ rfl rfl rfl
  | encEui => exact enc _ _ _ rfl rfl rfl
  | encNonce16 => exact enc _ _ _ rfl rfl rfl
  | encNonce24 => exact enc _ _ _ rfl rfl rfl
  | encFreq24 => exact enc _ _ _ rfl rfl rfl
  | decDevaddr => exact dec _ _ _ rfl rfl
  | decEui => exact dec _ _ _ rfl rfl
  | decNonce16 => exact dec _ _ _ rfl rfl
  | decNonce24 => exact dec _ _ _ rfl rfl
  | decFreq24 => exact dec _ _ _ rfl rfl

/-- A success update keeps the canonical form of the buffer. -/
theorem Effect.keeps_wf {i : Instr} {s u : State} {v : Bool} (h : Effect i s u v) (hs : Memory.wf s.mem) :
    Memory.wf u.mem := by
  cases h with
  | check _ _ => exact hs
  | set n mic _ _ hn => exact Memory.wf_store _ _ _ hs hn
  | cipher a bs _ _ _ hn => exact Memory.wf_store _ _ _ hs hn
  | encode a bs _ _ hn => exact Memory.wf_store _ _ _ hs hn
  | decode _ _ => exact hs

/-- A command keeps the canonical form of the buffer. -/
theorem exec_keeps_wf {i : Instr} {s t : State} (h : exec i s = .next t) (hs : Memory.wf s.mem) : Memory.wf t.mem := by
  rcases exec_cases i s with ⟨e, he, _⟩ | ⟨u, v, hu, hE⟩
  · rw [he] at h; cases h; exact hs
  · rw [hu] at h; cases h; exact hE.keeps_wf hs

/-- A command, or an illegal command word, keeps the canonical form of the buffer. -/
theorem runCommand_keeps_wf {w : Word} {s t : State} (h : runCommand w s = .next t) (hs : Memory.wf s.mem) :
    Memory.wf t.mem := by
  rw [runCommand] at h
  split at h
  · exact exec_keeps_wf h hs
  · cases h; exact hs

end Sys2Proof.Machine
end

