-- ==== Sys2Proof/Laws/Decode.lean ====
section
/-! SUPPORT. The fields of an encoded command word (R120), and what each field of a word decides (R123). -/

namespace Sys2Proof

/-- `OP`, as a number. -/
theorem opField_toNat (w : Word) : (opField w).toNat = w.toNat % 256 := by
  simp [opField]

/-- `DIR`, as a number. -/
theorem dirField_eq_down (w : Word) : dirField w = .down ↔ w.toNat / 256 % 2 = 1 := by
  have h : w.getLsbD 8 = decide (w.toNat / 256 % 2 = 1) := by
    rw [BitVec.getLsbD, Nat.testBit_eq_decide_div_mod_eq]
  unfold dirField
  rw [h]
  by_cases hb : w.toNat / 256 % 2 = 1 <;> simp [hb]

/-- `RSV`, as a number. -/
theorem rsvField_eq_zero (w : Word) : rsvField w = 0 ↔ w.toNat / 512 = 0 := by
  have hw : w.toNat < 2 ^ 32 := w.isLt
  have hm : w.toNat / 512 < 8388608 := by omega
  have h : (rsvField w).toNat = w.toNat / 512 := by
    simp only [rsvField, BitVec.extractLsb'_toNat, Nat.shiftRight_eq_div_pow]
    exact Nat.mod_eq_of_lt hm
  rw [← BitVec.toNat_inj, h]
  rfl

/-- A word is its three fields. -/
theorem word_eq_fields (w : Word) :
    w.toNat = w.toNat % 256 + 256 * (w.toNat / 256 % 2) + 512 * (w.toNat / 512) := by omega

/-- Everything `decode` can do (R123). -/
theorem decode_cases (w : Word) :
    (rowOf (opField w).toNat (dirField w) = none ∧ decode w = .illegal .unassignedOp) ∨
    (∃ i, rowOf (opField w).toNat (dirField w) = some i ∧
      ((rsvField w ≠ 0 ∧ decode w = .illegal .reservedBits) ∨
       (rsvField w = 0 ∧ dirField w = .down ∧ i.mnemonic.usesDir = false ∧ decode w = .illegal .dirMustBeZero) ∨
       (rsvField w = 0 ∧ (dirField w = .up ∨ i.mnemonic.usesDir = true) ∧ decode w = .command i))) := by
  unfold decode
  split
  · next h => exact .inl ⟨h, rfl⟩
  · next i h =>
    refine .inr ⟨i, h, ?_⟩
    by_cases hr : rsvField w ≠ 0
    · exact .inl ⟨hr, by rw [if_pos hr]⟩
    · have hr0 : rsvField w = 0 := not_not.1 hr
      by_cases hd : dirField w = .down ∧ i.mnemonic.usesDir = false
      · exact .inr (.inl ⟨hr0, hd.1, hd.2, by rw [if_neg hr, if_pos hd]⟩)
      · refine .inr (.inr ⟨hr0, ?_, by rw [if_neg hr, if_neg hd]⟩)
        cases h1 : dirField w
        · exact .inl rfl
        · cases h2 : i.mnemonic.usesDir
          · exact absurd ⟨h1, h2⟩ hd
          · exact .inr rfl

/-- The row of an opcode has that opcode (R121). -/
theorem rowOf_opcode {op : Nat} {d : Dir} {i : Instr} (h : rowOf op d = some i) :
    i.mnemonic.opcode.toNat = op ∧ (i.mnemonic.usesDir = true → i.dir = d) ∧
      (i.mnemonic.usesDir = false → i.dir = .up) := by
  unfold rowOf at h
  split at h <;> cases h <;>
    exact ⟨rfl, fun hu => by first | rfl | exact Bool.noConfusion hu, fun hu => by first | rfl | exact Bool.noConfusion hu⟩

end Sys2Proof
end

