-- ==== Sys2Proof/Laws/PerInstr.lean ====
section
/-! SUPPORT. The per-instruction families of LAWS.json. `WordShape`: the word of a command has its opcode in bits 7 to
0, its direction in bit 8 and zeros above (R120), a set direction bit only where R121 uses one, and the command is well
formed. -/

namespace Sys2Proof.Laws.WordShape

/-- The fields of the word of a command (R120, R121). -/
def Statement (i : Instr) : Prop :=
  opField (encode i) = i.mnemonic.opcode ∧ dirField (encode i) = i.dir ∧ rsvField (encode i) = 0 ∧
  (i.mnemonic.usesDir = false → (encode i).getLsbD 8 = false) ∧ i.wellFormed = true

theorem micDataSet (dir : Dir) : Statement (.micDataSet dir) := by cases dir <;> (unfold Statement; decide)
theorem micDataChk (dir : Dir) : Statement (.micDataChk dir) := by cases dir <;> (unfold Statement; decide)
theorem micJrSet : Statement .micJrSet := by unfold Statement; decide
theorem micJrChk : Statement .micJrChk := by unfold Statement; decide
theorem micJaSet : Statement .micJaSet := by unfold Statement; decide
theorem micJaChk : Statement .micJaChk := by unfold Statement; decide
theorem ctrEnc (dir : Dir) : Statement (.ctrEnc dir) := by cases dir <;> (unfold Statement; decide)
theorem ctrDec (dir : Dir) : Statement (.ctrDec dir) := by cases dir <;> (unfold Statement; decide)
theorem jaEnc : Statement .jaEnc := by unfold Statement; decide
theorem jaDec : Statement .jaDec := by unfold Statement; decide
theorem encDevaddr : Statement .encDevaddr := by unfold Statement; decide
theorem decDevaddr : Statement .decDevaddr := by unfold Statement; decide
theorem encEui : Statement .encEui := by unfold Statement; decide
theorem decEui : Statement .decEui := by unfold Statement; decide
theorem encNonce16 : Statement .encNonce16 := by unfold Statement; decide
theorem decNonce16 : Statement .decNonce16 := by unfold Statement; decide
theorem encNonce24 : Statement .encNonce24 := by unfold Statement; decide
theorem decNonce24 : Statement .decNonce24 := by unfold Statement; decide
theorem encFreq24 : Statement .encFreq24 := by unfold Statement; decide
theorem decFreq24 : Statement .decFreq24 := by unfold Statement; decide

end Sys2Proof.Laws.WordShape
end

