-- ==== Sys2Proof/Laws/Window.lean ====
section
/-! SUPPORT. The register window (R33, R81 to R84): where the offsets lie, what a host write changes and what it
leaves, and which accesses the bus refuses. -/

namespace Sys2Proof.Machine

/-! ### The map of R33 -/

theorem locate_reg (r : Reg) (j : Nat) (h : j < 4) : locate (r.offset + j) = .reg r j := by
  match j, h with
  | 0, _ => cases r <;> rfl
  | 1, _ => cases r <;> rfl
  | 2, _ => cases r <;> rfl
  | 3, _ => cases r <;> rfl

theorem locate_key (k : KeyName) (j : Nat) (h : j < 16) : locate (k.offset + j) = .key k j := by
  have : ∀ k : KeyName, ∀ j < 16, locate (k.offset + j) = .key k j := by
    intro k; cases k <;> decide
  exact this k j h

theorem locate_buf (a : Nat) (h : a < 512) : locate (0x200 + a) = .buf a := by
  have h1 : ¬ 0x200 + a < 0x004 := by omega
  have h2 : ¬ 0x200 + a < 0x034 := by omega
  have h3 : ¬ 0x200 + a < 0x040 := by omega
  have h4 : ¬ 0x200 + a < 0x050 := by omega
  have h5 : ¬ 0x200 + a < 0x060 := by omega
  have h6 : ¬ 0x200 + a < 0x070 := by omega
  have h7 : ¬ 0x200 + a < 0x200 := by omega
  have h8 : 0x200 + a < 0x400 := by omega
  simp only [locate, h1, h2, h3, h4, h5, h6, h7, h8, if_true, if_false, Nat.add_sub_cancel_left]

/-- A location in the buffer lies within it. -/
theorem locate_buf_lt {off a : Nat} (h : locate off = .buf a) : a < 512 ∧ off = 0x200 + a := by
  unfold locate at h
  split at h
  · cases h
  split at h
  · split at h <;> cases h
  split at h
  · cases h
  split at h
  · cases h
  split at h
  · cases h
  split at h
  · cases h
  split at h
  · cases h
  split at h
  · injection h with h
    subst h
    omega
  · cases h

/-- The defined offsets below the end of the window are those that R84 does not reserve. -/
theorem defined_iff (off : Nat) (h : off < 0x400) : defined off = true ↔ ¬ reservedOffset off := by
  unfold defined locate reservedOffset
  rw [bne_iff_ne]
  split
  · simp only [ne_eq, reduceCtorEq, not_false_eq_true, true_iff]; omega
  · split
    · have hr : ∀ n, 1 ≤ n → n ≤ 12 → ∃ r, regAt n = some r := by
        intro n h1 h2
        interval_cases n <;> exact ⟨_, rfl⟩
      obtain ⟨r, hr⟩ := hr (off / 4) (by omega) (by omega)
      rw [hr]
      simp only [ne_eq, reduceCtorEq, not_false_eq_true, true_iff]; omega
    · split
      · simp only [ne_eq, not_true_eq_false, false_iff, not_not]; omega
      · split
        · simp only [ne_eq, reduceCtorEq, not_false_eq_true, true_iff]; omega
        · split
          · simp only [ne_eq, reduceCtorEq, not_false_eq_true, true_iff]; omega
          · split
            · simp only [ne_eq, reduceCtorEq, not_false_eq_true, true_iff]; omega
            · split
              · simp only [ne_eq, not_true_eq_false, false_iff, not_not]; omega
              · simp only [ne_eq, reduceCtorEq, not_false_eq_true, true_iff]; omega

/-- Inside the window, the bus accepts exactly what R84 does not refuse (R81, R84). -/
theorem accepts_iff (off w : Nat) (h : off < 0x400) : accepts off w = true ↔ ¬ refusedAccess off w := by
  unfold accepts refusedAccess
  simp only [Bool.and_eq_true, Bool.or_eq_true, beq_iff_eq, List.all_eq_true, List.mem_range]
  constructor
  · rintro ⟨⟨hw, ha⟩, hd⟩ (h1 | h1 | ⟨b, hb, hr⟩)
    · omega
    · exact h1 ha
    · have hlt : off + b < 0x400 := by
        rcases hw with (rfl | rfl) | rfl <;> omega
      exact (defined_iff _ hlt).1 (hd b hb) hr
  · intro hn
    simp only [not_or, not_and, not_not, not_exists] at hn
    obtain ⟨h1, h2, h3⟩ := hn
    have hw : (w = 1 ∨ w = 2) ∨ w = 4 := by omega
    refine ⟨⟨hw, h2⟩, fun b hb => ?_⟩
    have hlt : off + b < 0x400 := by
      rcases hw with (rfl | rfl) | rfl <;> omega
    exact (defined_iff _ hlt).2 (h3 b hb)

/-! ### A register after a host write -/

/-- The mask of the low `w` bits, bit by bit. -/
theorem mask_getLsbD (w i : Nat) (h : i < 32) : (BitVec.ofNat 32 (2 ^ w - 1)).getLsbD i = decide (i < w) := by
  rw [BitVec.getLsbD_ofNat, Nat.testBit_two_pow_sub_one]
  simp [h]

/-- A register of `w` bits, seen as 32 bits, after its defined bits took a value. -/
theorem narrow_write (w : Nat) (x : BitVec w) (v : Word) :
    (v.setWidth w).setWidth 32
      = (x.setWidth 32 &&& ~~~(BitVec.ofNat 32 (2 ^ w - 1))) ||| (v &&& BitVec.ofNat 32 (2 ^ w - 1)) := by
  apply BitVec.eq_of_getLsbD_eq
  intro i hi
  simp only [BitVec.getLsbD_or, BitVec.getLsbD_and, BitVec.getLsbD_not, BitVec.getLsbD_setWidth, mask_getLsbD w i hi,
    hi, decide_true, Bool.true_and]
  by_cases hw : i < w
  · simp [hw]
  · simp [hw, BitVec.getLsbD_of_ge x i (by omega)]

/-- Writing all the bits of a word, and writing none of them. -/
theorem whole_write (x v : Word) : v = (x &&& ~~~(0xFFFFFFFF : Word)) ||| (v &&& 0xFFFFFFFF) := by
  have h := narrow_write 32 x v
  rwa [BitVec.setWidth_eq, BitVec.setWidth_eq, BitVec.setWidth_eq] at h

theorem no_write (x v : Word) : x = (x &&& ~~~(0 : Word)) ||| (v &&& 0) := by
  have h : ~~~(0 : Word) = BitVec.allOnes 32 := rfl
  have hz : v &&& (0 : Word) = 0#32 := BitVec.and_zero
  rw [h, BitVec.and_allOnes, hz, BitVec.or_zero]

/-- Writing one half of `VAL` leaves the other (R44). -/
theorem append_low (hi lo : Word) : (hi ++ lo).extractLsb' 0 32 = lo := by
  apply BitVec.eq_of_getLsbD_eq
  intro i h
  simp only [BitVec.getLsbD_extractLsb', BitVec.getLsbD_append, h, decide_true, Bool.true_and, Nat.zero_add]
  simp

theorem append_high (hi lo : Word) : (hi ++ lo).extractLsb' 32 32 = hi := by
  apply BitVec.eq_of_getLsbD_eq
  intro i h
  have h1 : ¬ 32 + i < 32 := by omega
  simp only [BitVec.getLsbD_extractLsb', BitVec.getLsbD_append, h, decide_true, Bool.true_and, h1, Nat.add_sub_cancel_left]
  simp

/-- Host writes of a register: the defined bits take the value, the others stay (R83). -/
theorem State.getReg_setReg (s : State) (r : Reg) (v : Word) :
    (s.setReg r v).getReg r = (s.getReg r &&& ~~~(writableMask r)) ||| (v &&& writableMask r) := by
  cases r with
  | status => exact no_write s.statusWord v
  | mic => exact no_write s.mic v
  | ctrl =>
    show (if v.getLsbD 0 then (1 : Word) else 0) = ((if s.ciph then (1 : Word) else 0) &&& ~~~1) ||| (v &&& 1)
    have h1 : ((if s.ciph then (1 : Word) else 0) &&& ~~~1) = 0 := by cases s.ciph <;> decide
    rw [h1]
    apply BitVec.eq_of_getLsbD_eq
    intro i hi
    have hm := mask_getLsbD 1 i hi
    simp only [Nat.pow_one] at hm
    simp only [BitVec.getLsbD_or, BitVec.getLsbD_and]
    have hone : (1 : Word).getLsbD i = decide (i < 1) := hm
    rw [hone]
    cases i with
    | zero => cases h : v.getLsbD 0 <;> simp
    | succ i => cases h : v.getLsbD 0 <;> simp [BitVec.getLsbD_one]
  | len => exact narrow_write 8 s.len v
  | fport => exact narrow_write 8 s.fport v
  | payoff => exact narrow_write 9 s.payoff v
  | paylen => exact narrow_write 10 s.paylen v
  | foff => exact narrow_write 9 s.foff v
  | devaddr => exact whole_write s.devaddr v
  | fcnt32 => exact whole_write s.fcnt32 v
  | valLo =>
    have h : (s.setReg .valLo v).getReg .valLo = v := append_low _ v
    rw [h]
    exact whole_write (s.getReg .valLo) v
  | valHi =>
    have h : (s.setReg .valHi v).getReg .valHi = v := append_high v _
    rw [h]
    exact whole_write (s.getReg .valHi) v

/-- A host write of one register leaves every other (R83). -/
theorem State.getReg_setReg_ne (s : State) (r r' : Reg) (v : Word) (h : r' ≠ r) :
    (s.setReg r v).getReg r' = s.getReg r' := by
  cases r with
  | valLo =>
    cases r' with
    | valLo => exact absurd rfl h
    | valHi => exact append_high (s.getReg .valHi) v
    | _ => rfl
  | valHi =>
    cases r' with
    | valLo => exact append_low v (s.getReg .valLo)
    | valHi => exact absurd rfl h
    | _ => rfl
  | _ => cases r' <;> first | exact absurd rfl h | rfl

/-- The later of two host writes of a register is the one that counts. -/
@[simp] theorem State.setReg_setReg (s : State) (r : Reg) (v w : Word) : (s.setReg r v).setReg r w = s.setReg r w := by
  cases r with
  | valLo => exact congrArg s.setVal (congrArg (· ++ w) (append_high (s.val.extractLsb' 32 32) v))
  | valHi => exact congrArg s.setVal (congrArg (w ++ ·) (append_low v (s.val.extractLsb' 0 32)))
  | _ => rfl

/-- Writing back what a register reads as changes nothing. -/
@[simp] theorem State.setReg_getReg (s : State) (r : Reg) : s.setReg r (s.getReg r) = s := by
  have hn : ∀ (w : Nat) (x : BitVec w), w ≤ 32 → (x.setWidth 32).setWidth w = x := by
    intro w x hw
    rw [BitVec.setWidth_setWidth_of_le _ hw, BitVec.setWidth_eq]
  have hv : s.val.extractLsb' 32 32 ++ s.val.extractLsb' 0 32 = s.val := by
    apply BitVec.eq_of_getLsbD_eq
    intro i hi
    simp only [BitVec.getLsbD_append, BitVec.getLsbD_extractLsb', Nat.zero_add]
    by_cases h : i < 32
    · simp [h]
    · have h1 : 32 + (i - 32) = i := by omega
      have h2 : i - 32 < 32 := by omega
      simp [h, h1, h2]
  cases r with
  | status => rfl
  | mic => rfl
  | devaddr => rfl
  | fcnt32 => rfl
  | ctrl => cases h : s.ciph <;> simp [State.setReg, State.getReg, State.ctrlWord, State.setCiph, h] <;> rw [← h]
  | len => simp only [State.setReg, State.getReg, hn 8 s.len (by omega)]
  | fport => simp only [State.setReg, State.getReg, hn 8 s.fport (by omega)]
  | payoff => simp only [State.setReg, State.getReg, hn 9 s.payoff (by omega)]
  | paylen => simp only [State.setReg, State.getReg, hn 10 s.paylen (by omega)]
  | foff => simp only [State.setReg, State.getReg, hn 9 s.foff (by omega)]
  | valLo => simp only [State.setReg, State.getReg, hv]; rfl
  | valHi => simp only [State.setReg, State.getReg, hv]; rfl

/-- Two values that agree on the bits a host can write leave the same register. -/
theorem State.setReg_congr (s : State) (r : Reg) (v w : Word)
    (h : v &&& writableMask r = w &&& writableMask r) : s.setReg r v = s.setReg r w := by
  have h1 : s.setReg r v = (s.setReg r w).setReg r ((s.setReg r v).getReg r) := by
    have h3 := (s.setReg r v).setReg_getReg r
    rw [State.setReg_setReg] at h3
    rw [State.setReg_setReg, h3]
  have h2 : (s.setReg r v).getReg r = (s.setReg r w).getReg r := by
    rw [State.getReg_setReg, State.getReg_setReg, h]
  rw [h1, h2, State.setReg_getReg]

@[simp] theorem State.setReg_mem (s : State) (r : Reg) (v : Word) : (s.setReg r v).mem = s.mem := by cases r <;> rfl
@[simp] theorem State.setReg_draw (s : State) (r : Reg) (v : Word) : (s.setReg r v).draw = s.draw := by
  cases r <;> rfl
@[simp] theorem State.setReg_pending (s : State) (r : Reg) (v : Word) : (s.setReg r v).pending = s.pending := by
  cases r <;> rfl
@[simp] theorem State.setReg_answer (s : State) (r : Reg) (v : Word) : (s.setReg r v).answer = s.answer := by
  cases r <;> rfl
@[simp] theorem State.setReg_err (s : State) (r : Reg) (v : Word) : (s.setReg r v).err = s.err := by cases r <;> rfl
@[simp] theorem State.setReg_valid (s : State) (r : Reg) (v : Word) : (s.setReg r v).valid = s.valid := by
  cases r <;> rfl
@[simp] theorem State.setReg_errcode (s : State) (r : Reg) (v : Word) : (s.setReg r v).errcode = s.errcode := by
  cases r <;> rfl
@[simp] theorem State.setReg_mic (s : State) (r : Reg) (v : Word) : (s.setReg r v).mic = s.mic := by
  cases r <;> rfl
@[simp] theorem State.setReg_getKey (s : State) (r : Reg) (v : Word) (k : KeyName) :
    (s.setReg r v).getKey k = s.getKey k := by
  cases r <;> cases k <;> rfl

@[simp] theorem State.getKey_setKey (s : State) (k : KeyName) (v : BitVec 128) : (s.setKey k v).getKey k = v := by
  cases k <;> rfl
theorem State.getKey_setKey_ne (s : State) (k k' : KeyName) (v : BitVec 128) (h : k' ≠ k) :
    (s.setKey k v).getKey k' = s.getKey k' := by
  cases k <;> cases k' <;> first | exact absurd rfl h | rfl
@[simp] theorem State.getReg_setKey (s : State) (k : KeyName) (v : BitVec 128) (r : Reg) :
    (s.setKey k v).getReg r = s.getReg r := by
  cases k <;> cases r <;> rfl
@[simp] theorem State.setKey_mem (s : State) (k : KeyName) (v : BitVec 128) : (s.setKey k v).mem = s.mem := by
  cases k <;> rfl
@[simp] theorem State.setKey_draw (s : State) (k : KeyName) (v : BitVec 128) : (s.setKey k v).draw = s.draw := by
  cases k <;> rfl
@[simp] theorem State.setKey_pending (s : State) (k : KeyName) (v : BitVec 128) :
    (s.setKey k v).pending = s.pending := by
  cases k <;> rfl
@[simp] theorem State.setKey_answer (s : State) (k : KeyName) (v : BitVec 128) : (s.setKey k v).answer = s.answer := by
  cases k <;> rfl
@[simp] theorem State.setKey_setKey (s : State) (k : KeyName) (v w : BitVec 128) :
    (s.setKey k v).setKey k w = s.setKey k w := by
  cases k <;> rfl
@[simp] theorem State.setKey_getKey (s : State) (k : KeyName) : s.setKey k (s.getKey k) = s := by
  cases k <;> rfl

/-! ### One byte, and a run of bytes -/

/-- Everything a host write of one byte can do (R83). -/
theorem State.writeByte_cases (s : State) (off : Nat) (b : Byte) :
    s.writeByte off b = s ∨
    (∃ r j, locate off = .reg r j ∧ s.writeByte off b = s.setReg r (withByte (s.getReg r) j b)) ∨
    (∃ k j, locate off = .key k j ∧ s.writeByte off b = s.setKey k (withByte (s.getKey k) j b)) ∨
    (∃ a, a < 512 ∧ off = 0x200 + a ∧ s.writeByte off b = s.memWrite a [b]) := by
  unfold State.writeByte
  split
  · exact .inl rfl
  · next h => exact .inr (.inl ⟨_, _, h, rfl⟩)
  · next h => exact .inr (.inr (.inl ⟨_, _, h, rfl⟩))
  · next h =>
    obtain ⟨h1, h2⟩ := locate_buf_lt h
    exact .inr (.inr (.inr ⟨_, h1, h2, rfl⟩))
  · exact .inl rfl

/-- What no host write of a byte other than a command touches: `STATUS`, `MIC` and the model's own fields. -/
theorem State.writeByte_frame (s : State) (off : Nat) (b : Byte) :
    (s.writeByte off b).err = s.err ∧ (s.writeByte off b).valid = s.valid ∧
    (s.writeByte off b).errcode = s.errcode ∧ (s.writeByte off b).mic = s.mic ∧
    (s.writeByte off b).draw = s.draw ∧ (s.writeByte off b).pending = s.pending ∧
    (s.writeByte off b).answer = s.answer := by
  rcases s.writeByte_cases off b with h | ⟨r, j, _, h⟩ | ⟨k, j, _, h⟩ | ⟨a, _, _, h⟩ <;> rw [h]
  · simp
  · simp
  · cases k <;> simp [State.setKey]
  · simp

theorem State.writeByte_keeps_wf (s : State) (off : Nat) (b : Byte) (hs : Memory.wf s.mem) :
    Memory.wf (s.writeByte off b).mem := by
  rcases s.writeByte_cases off b with h | ⟨r, j, _, h⟩ | ⟨k, j, _, h⟩ | ⟨a, ha, _, h⟩ <;> rw [h]
  · exact hs
  · simpa using hs
  · simpa using hs
  · exact Memory.wf_store _ _ _ hs (by simpa [Config.bufSize] using ha)

/-- A host write other than a command keeps the canonical form of the buffer. -/
theorem State.writeBytes_keeps_wf (s : State) (off : Nat) (bs : List Byte) (hs : Memory.wf s.mem) :
    Memory.wf (s.writeBytes off bs).mem := by
  induction bs generalizing s off with
  | nil => exact hs
  | cons b bs ih => exact ih _ _ (s.writeByte_keeps_wf off b hs)

theorem State.writeBytes_frame (s : State) (off : Nat) (bs : List Byte) :
    (s.writeBytes off bs).err = s.err ∧ (s.writeBytes off bs).valid = s.valid ∧
    (s.writeBytes off bs).errcode = s.errcode ∧ (s.writeBytes off bs).mic = s.mic ∧
    (s.writeBytes off bs).draw = s.draw ∧ (s.writeBytes off bs).pending = s.pending ∧
    (s.writeBytes off bs).answer = s.answer := by
  induction bs generalizing s off with
  | nil => simp [State.writeBytes]
  | cons b bs ih =>
    obtain ⟨h1, h2, h3, h4, h5, h6, h7⟩ := ih (s.writeByte off b) (off + 1)
    obtain ⟨g1, g2, g3, g4, g5, g6, g7⟩ := s.writeByte_frame off b
    exact ⟨h1.trans g1, h2.trans g2, h3.trans g3, h4.trans g4, h5.trans g5, h6.trans g6, h7.trans g7⟩

/-- A run of bytes written to the buffer is one `MemWrite` (R83). -/
theorem State.writeBytes_buf (s : State) (a : Nat) (bs : List Byte) (h : a + bs.length ≤ 512) :
    s.writeBytes (0x200 + a) bs = s.memWrite a bs := by
  induction bs generalizing s a with
  | nil => rfl
  | cons b bs ih =>
    simp only [List.length_cons] at h
    have h1 : s.writeByte (0x200 + a) b = s.memWrite a [b] := by
      unfold State.writeByte; rw [locate_buf a (by omega)]
    rw [State.writeBytes, h1, Nat.add_assoc, ih _ _ (by omega)]
    rfl

/-- A run of bytes written to a key register changes that register alone. -/
theorem State.writeBytes_key (s : State) (k : KeyName) (j : Nat) (bs : List Byte) (h : j + bs.length ≤ 16) :
    ∃ v, s.writeBytes (k.offset + j) bs = s.setKey k v ∧
      ∀ i < 16, byteOf v i = if j ≤ i ∧ i < j + bs.length then bs.getD (i - j) 0 else byteOf (s.getKey k) i := by
  induction bs generalizing s j with
  | nil => exact ⟨s.getKey k, by simp [State.writeBytes], fun i _ => by rw [if_neg (by simp)]⟩
  | cons b bs ih =>
    simp only [List.length_cons] at h
    have h1 : s.writeByte (k.offset + j) b = s.setKey k (withByte (s.getKey k) j b) := by
      unfold State.writeByte; rw [locate_key k j (by omega)]
    obtain ⟨v, hv, hb⟩ := ih (s.setKey k (withByte (s.getKey k) j b)) (j + 1) (by omega)
    refine ⟨v, ?_, fun i hi => ?_⟩
    · rw [State.writeBytes, h1, Nat.add_assoc, hv, State.setKey_setKey]
    · rw [hb i hi, State.getKey_setKey, byteOf_withByte _ _ _ _ (by omega)]
      simp only [List.length_cons]
      by_cases hij : i = j
      · subst hij
        rw [if_neg (by omega), if_pos rfl, if_pos (by omega)]; simp
      · by_cases hin : j + 1 ≤ i ∧ i < j + 1 + bs.length
        · have h2 : i - j = (i - (j + 1)) + 1 := by omega
          rw [if_pos hin, if_pos (by omega), h2, List.getD_cons_succ]
        · rw [if_neg hin, if_neg hij, if_neg (by omega)]

/-- A run of bytes written to a register is one write of that register, of a value with those bytes in place (R83). -/
theorem State.writeBytes_reg (s : State) (r : Reg) (j : Nat) (bs : List Byte) (h : j + bs.length ≤ 4) :
    ∃ v, s.writeBytes (r.offset + j) bs = s.setReg r v ∧
      ∀ i < 4, byteOf v i = if j ≤ i ∧ i < j + bs.length then bs.getD (i - j) 0 else byteOf (s.getReg r) i := by
  induction bs generalizing s j with
  | nil => exact ⟨s.getReg r, by simp [State.writeBytes], fun i _ => by rw [if_neg (by simp)]⟩
  | cons b bs ih =>
    simp only [List.length_cons] at h
    have h1 : s.writeByte (r.offset + j) b = s.setReg r (withByte (s.getReg r) j b) := by
      unfold State.writeByte; rw [locate_reg r j (by omega)]
    obtain ⟨v, hv, hb⟩ := ih (s.setReg r (withByte (s.getReg r) j b)) (j + 1) (by omega)
    have hold : ∀ i < 4, i ≠ j → byteOf ((s.setReg r (withByte (s.getReg r) j b)).getReg r) i = byteOf (s.getReg r) i := by
      intro i hi hij
      have hx : byteOf (withByte (s.getReg r) j b) i = byteOf (s.getReg r) i := by
        rw [byteOf_withByte _ _ _ _ (by omega), if_neg hij]
      rw [State.getReg_setReg, byteOf_or, byteOf_and, byteOf_and, hx, ← byteOf_and, ← byteOf_and, ← byteOf_or]
      congr 1
      apply BitVec.eq_of_getLsbD_eq
      intro q hq
      simp only [BitVec.getLsbD_or, BitVec.getLsbD_and, BitVec.getLsbD_not, hq, decide_true, Bool.true_and]
      cases (s.getReg r).getLsbD q <;> cases (writableMask r).getLsbD q <;> rfl
    refine ⟨withByte v j b, ?_, fun i hi => ?_⟩
    · rw [State.writeBytes, h1, Nat.add_assoc, hv, State.setReg_setReg]
      refine s.setReg_congr r _ _ (eq_of_byteOf (n := 4) _ _ fun i hi => ?_)
      rw [byteOf_and, byteOf_and, byteOf_withByte _ _ _ _ (by omega)]
      by_cases hij : i = j
      · subst hij
        rw [if_pos rfl, hb i hi, if_neg (by omega), State.getReg_setReg, byteOf_or, byteOf_and, byteOf_and,
          byteOf_withByte _ _ _ _ (by omega), if_pos rfl]
        apply BitVec.eq_of_getLsbD_eq
        intro q hq
        have hnot : (byteOf (~~~(writableMask r)) i).getLsbD q = !(byteOf (writableMask r) i).getLsbD q := by
          have h32 : 8 * i + q < 32 := by omega
          simp only [byteOf_getLsbD, BitVec.getLsbD_not, hq, h32, decide_true, Bool.true_and]
        simp only [BitVec.getLsbD_or, BitVec.getLsbD_and, hnot]
        cases (byteOf (writableMask r) i).getLsbD q <;> simp
      · rw [if_neg hij]
    · rw [byteOf_withByte _ _ _ _ (by omega)]
      simp only [List.length_cons]
      by_cases hij : i = j
      · subst hij
        rw [if_pos rfl, if_pos (by omega)]; simp
      · rw [if_neg hij, hb i hi, hold i hi hij]
        by_cases hin : j + 1 ≤ i ∧ i < j + 1 + bs.length
        · have h2 : i - j = (i - (j + 1)) + 1 := by omega
          rw [if_pos hin, if_pos (by omega), h2, List.getD_cons_succ]
        · rw [if_neg hin, if_neg (by omega)]
/-! ### Reads -/

theorem State.readValue_toNat (s : State) (off w : Nat) (h : w ≤ 4) :
    (s.readValue off w).toNat = leValue ((List.range w).map fun b => s.readByte (off + b)) := by
  have h1 := leValue_lt ((List.range w).map fun b => s.readByte (off + b))
  rw [List.length_map, List.length_range] at h1
  have h2 : (256 : Nat) ^ w ≤ 256 ^ 4 := Nat.pow_le_pow_right (by omega) h
  rw [State.readValue, BitVec.toNat_ofNat, Nat.mod_eq_of_lt (by omega)]

/-- Byte `b` of the value of a read of width `w` is the byte of the window at `off + b` (R82). -/
theorem State.byteOf_readValue (s : State) (off w b : Nat) (h : b < 4) :
    byteOf (s.readValue off w) b = if b < w then s.readByte (off + b) else 0 := by
  rw [State.readValue, byteOf_ofNat_leValue 32 _ b (by omega)]
  split
  · next hb => simp [hb]
  · next hb => simp [Nat.le_of_not_lt hb]

/-- A read of the buffer is a `MemRead` (R82). -/
theorem State.readValue_buf (s : State) (a w : Nat) (h : a + w ≤ 512) :
    s.readValue (0x200 + a) w = BitVec.ofNat 32 (leValue (s.memRead a w)) := by
  rw [State.readValue, State.memRead]
  congr 2
  refine List.map_congr_left fun b hb => ?_
  have hb := List.mem_range.1 hb
  unfold State.readByte
  rw [Nat.add_assoc, locate_buf (a + b) (by omega)]

/-- What the host reads does not depend on the keys (R46, R351). -/
theorem State.readByte_withKeys (s : State) (k1 k2 k3 : BitVec 128) (off : Nat) :
    (s.withKeys k1 k2 k3).readByte off = s.readByte off := by
  unfold State.readByte
  split
  · rfl
  · next r j _ => cases r <;> rfl
  · rfl
  · rfl
  · rfl

/-! ### Steps and bus addresses -/

/-- A step with something pending runs it (R17). -/
theorem step_cons {s : State} {e : HostEvent} {rest : List HostEvent} (h : s.pending = e :: rest) :
    step s = runEvent e { s with pending := rest, answer := none } := by
  have hc : s.consume = { s with pending := rest, answer := none } := by rw [State.consume, h]; rfl
  unfold step
  rw [h]
  exact congrArg (runEvent e) hc

theorem step_nil {s : State} (h : s.pending = []) : step s = .next s := by
  unfold step
  rw [h]

/-- A physical address in the window names its offset (R80). -/
theorem offsetOf_inside {addr : Nat} (h : Config.base ≤ addr) (h' : addr < Config.base + 1024) :
    offsetOf (.physical addr) = some (addr - Config.base) :=
  if_pos ⟨h, h'⟩

/-- A physical address outside the window is not the block's (R90). -/
theorem offsetOf_outside {addr : Nat} (h : addr < Config.base ∨ Config.base + 1024 ≤ addr) :
    offsetOf (.physical addr) = none :=
  if_neg fun ⟨h1, h2⟩ => h.elim (fun h => absurd h1 (Nat.not_le.2 h)) fun h => absurd h2 (Nat.not_lt.2 h)

theorem runEvent_read {a : BusAddr} {off : Nat} (h : offsetOf a = some off) (w : Nat) (s : State) :
    runEvent (.read a w) s = hostRead off w s := by
  simp only [runEvent]
  rw [h]

theorem runEvent_write {a : BusAddr} {off : Nat} (h : offsetOf a = some off) (w v : Nat) (s : State) :
    runEvent (.write a w v) s = hostWrite off w v s := by
  simp only [runEvent]
  rw [h]

theorem runEvent_read_outside {a : BusAddr} (h : offsetOf a = none) (w : Nat) (s : State) :
    runEvent (.read a w) s = .next s := by
  simp only [runEvent]
  rw [h]

theorem runEvent_write_outside {a : BusAddr} (h : offsetOf a = none) (w v : Nat) (s : State) :
    runEvent (.write a w v) s = .next s := by
  simp only [runEvent]
  rw [h]

end Sys2Proof.Machine
end

