-- ==== Sys2Proof/Tests/Slice0.lean ====
section
/-! SUPPORT. Tests of one step on small states, whose expected results come from the spec's vectors (95_test_vectors.md:
K, V, T and P below) and rules; the checks of WellFormed on ill-formed terms; and, for every statement with hypotheses, a
state and operands that meet them. -/

namespace Sys2Proof.Tests

set_option Elab.async false

open Sys2Proof.Machine

/-! ### Small states -/

/-- A byte string from numbers. -/
def str (l : List Nat) : List Byte := l.map (BitVec.ofNat 8)

/-- The bytes `a, a+1, …`, `n` of them. -/
def count (a n : Nat) : List Byte := (List.range n).map fun k => BitVec.ofNat 8 (a + k)

/-- The reset state with bytes written from `BUF[a]` on. -/
def withBuf (a : Nat) (bytes : List Byte) : State := State.reset.memWrite a bytes

/-- A key register holding a 16-byte string. -/
def keyOf (bytes : List Byte) : BitVec 128 := BitVec.ofNat 128 (leValue bytes)

/-- The outcome is a next state of which `p` holds. -/
def nextHas (o : Host.Outcome State Fault Refusal) (p : State → Bool) : Bool :=
  match o with
  | .next t => p t
  | _ => false

/-- The outcome is a `BusError`. -/
def isBusError (o : Host.Outcome State Fault Refusal) : Bool :=
  match o with
  | .fault .busError => true
  | _ => false

/-- The reset state with the codec's registers set and bytes written at `FOFF`. -/
def codecState (foff : Nat) (val : Nat) (bytes : List Nat) : State :=
  { withBuf foff (str bytes) with foff := BitVec.ofNat 9 foff, val := BitVec.ofNat 64 val }

/-- The state of T50 to T55: `NWKSKEY = 16 x 02`, `DEVADDR = 0x01020304`, `FCNT32 = 1`, and a message length. -/
def dataState (len : Nat) (bytes : List Byte) : State :=
  { withBuf 0 bytes with
    nwkskey := keyOf (List.replicate 16 2), devaddr := 0x01020304, fcnt32 := 1, len := BitVec.ofNat 8 len }

/-- The frame of V1. -/
def frameV1 : List Byte :=
  str [0x40, 0x04, 0x03, 0x02, 0x01, 0x80, 0x01, 0x00, 0x01, 0xa6, 0x94, 0x64, 0x26, 0x15, 0xd6, 0xc3, 0xb5, 0x82]

/-- A join frame under `APPKEY = 00 01 … 0f`. -/
def joinState (len : Nat) (ciph : Bool) (bytes : List Byte) : State :=
  { withBuf 0 bytes with appkey := keyOf (count 0 16), len := BitVec.ofNat 8 len, ciph := ciph }

/-- The JoinRequest message of T57. -/
def joinRequest : List Byte :=
  str [0x00, 0x08, 0x07, 0x06, 0x05, 0x04, 0x03, 0x02, 0x01, 0x18, 0x17, 0x16, 0x15, 0x14, 0x13, 0x12, 0x11, 0x34, 0x12]

/-- The JoinAccept message of T62. -/
def joinAccept : List Byte := str [0x20, 0xef, 0xcd, 0xab, 0x13, 0x00, 0x00, 0x04, 0x03, 0x02, 0x01, 0x00, 0x01]

/-- The encrypted region of T80. -/
def joinAcceptCipher : List Byte :=
  str [0xd0, 0xe9, 0xc8, 0xbc, 0x33, 0xf6, 0xed, 0x41, 0x26, 0x6a, 0xa6, 0x69, 0xac, 0xfe, 0x70, 0xea]

/-- The reset state with one event to come. -/
def pend (e : HostEvent) : State := { State.reset with pending := [e] }

/-! ### Decoding: words written out from R120 and R121 -/

theorem test_decode_micDataSet : decode 0x00000001 = .command (.micDataSet .up) := by decide
theorem test_decode_micDataSet_down : decode 0x00000101 = .command (.micDataSet .down) := by decide
theorem test_decode_micDataChk : decode 0x00000002 = .command (.micDataChk .up) := by decide
theorem test_decode_micDataChk_down : decode 0x00000102 = .command (.micDataChk .down) := by decide
theorem test_decode_micJrSet : decode 0x00000003 = .command .micJrSet := by decide
theorem test_decode_micJrChk : decode 0x00000004 = .command .micJrChk := by decide
theorem test_decode_micJaSet : decode 0x00000005 = .command .micJaSet := by decide
theorem test_decode_micJaChk : decode 0x00000006 = .command .micJaChk := by decide
theorem test_decode_ctrEnc : decode 0x00000010 = .command (.ctrEnc .up) := by decide
theorem test_decode_ctrEnc_down : decode 0x00000110 = .command (.ctrEnc .down) := by decide
theorem test_decode_ctrDec : decode 0x00000011 = .command (.ctrDec .up) := by decide
theorem test_decode_ctrDec_down : decode 0x00000111 = .command (.ctrDec .down) := by decide
theorem test_decode_jaEnc : decode 0x00000020 = .command .jaEnc := by decide
theorem test_decode_jaDec : decode 0x00000021 = .command .jaDec := by decide
theorem test_decode_encDevaddr : decode 0x00000030 = .command .encDevaddr := by decide
theorem test_decode_decDevaddr : decode 0x00000031 = .command .decDevaddr := by decide
theorem test_decode_encEui : decode 0x00000032 = .command .encEui := by decide
theorem test_decode_decEui : decode 0x00000033 = .command .decEui := by decide
theorem test_decode_encNonce16 : decode 0x00000034 = .command .encNonce16 := by decide
theorem test_decode_decNonce16 : decode 0x00000035 = .command .decNonce16 := by decide
theorem test_decode_encNonce24 : decode 0x00000036 = .command .encNonce24 := by decide
theorem test_decode_decNonce24 : decode 0x00000037 = .command .decNonce24 := by decide
theorem test_decode_encFreq24 : decode 0x00000038 = .command .encFreq24 := by decide
theorem test_decode_decFreq24 : decode 0x00000039 = .command .decFreq24 := by decide

/-- T86 to T91. -/
theorem test_decode_illegal :
    decode 0x00000000 = .illegal .unassignedOp ∧ decode 0x00000007 = .illegal .unassignedOp ∧
    decode 0x000000FF = .illegal .unassignedOp ∧ decode 0x00000103 = .illegal .dirMustBeZero ∧
    decode 0x00000130 = .illegal .dirMustBeZero ∧ decode 0x00000201 = .illegal .reservedBits := by decide

/-- The edges of the unassigned runs of R124, and the top reserved bit. -/
theorem test_decode_edges :
    decode 0x0000000F = .illegal .unassignedOp ∧ decode 0x00000012 = .illegal .unassignedOp ∧
    decode 0x0000001F = .illegal .unassignedOp ∧ decode 0x00000022 = .illegal .unassignedOp ∧
    decode 0x0000002F = .illegal .unassignedOp ∧ decode 0x0000003A = .illegal .unassignedOp ∧
    decode 0x80000011 = .illegal .reservedBits := by decide

/-- R120: `w = (d << 8) | op`. -/
theorem test_encode : encode (.ctrDec .down) = 0x00000111 ∧ encode .decFreq24 = 0x00000039 := by decide

theorem test_decodeTableWord :
    decodeTableWord 32 0x00000102 = some (.micDataChk .down) ∧ decodeTableWord 8 0x21 = some .jaDec ∧
    decodeTableWord 32 0x00000107 = none ∧ decodeTableWord 40 0x00000001 = none := by decide

/-- The word placed for the next step is the word that runs: `ENC_NONCE16` of T28, then an illegal word. -/
theorem test_withFetchWord :
    nextHas (step ((codecState 17 0x1234 []).withFetchWord 32 0x34))
      (fun t => t.memRead 17 2 == str [0x34, 0x12] && t.statusWord == 0x000 && t.pending == []) = true ∧
    nextHas (step (State.reset.withFetchWord 32 0x07)) (fun t => t.statusWord == 0x101) = true := by decide +kernel

/-! ### WellFormed: each check on a term that fails it -/

theorem test_wellFormed_commands :
    (Instr.micDataSet .down).wellFormed = true ∧ Instr.decFreq24.wellFormed = true ∧
    cmdWellFormed .micJrSet .down = false ∧ cmdWellFormed .encDevaddr .down = false ∧
    cmdWellFormed .ctrEnc .down = true := by decide

theorem test_wellFormed_access :
    BusAddr.wellFormed (.window 0x400) = false ∧ BusAddr.wellFormed (.window 0x3FF) = true ∧
    HostEvent.wellFormed (.read (.window 0x400) 4) = false ∧
    HostEvent.wellFormed (.write (.window 0x400) 1 0) = false ∧
    HostEvent.wellFormed (.write (.window 0x200) 1 0x100) = false ∧
    HostEvent.wellFormed (.write (.window 0x200) 1 0xFF) = true := by decide

theorem test_wellFormed_lines_access :
    HostLine.wellFormed (.sw 0x400 0) = false ∧ HostLine.wellFormed (.sw 0 (2 ^ 32)) = false ∧
    HostLine.wellFormed (.sh 0x400 0) = false ∧ HostLine.wellFormed (.sh 0x200 0x10000) = false ∧
    HostLine.wellFormed (.sb 0x400 0) = false ∧ HostLine.wellFormed (.sb 0x200 0x100) = false ∧
    HostLine.wellFormed (.lw 0x400) = false ∧ HostLine.wellFormed (.lh 0x400) = false ∧
    HostLine.wellFormed (.lb 0x400) = false := by decide

theorem test_wellFormed_lines_pseudo :
    HostLine.wellFormed (.cmd .jaEnc .down) = true ∧
    HostLine.wellFormed (.key .appkey (List.replicate 15 0)) = false ∧
    HostLine.wellFormed (.key .appkey (List.replicate 16 0)) = true ∧
    HostLine.wellFormed (.buf 511 [0, 0]) = false ∧ HostLine.wellFormed (.buf 511 [0]) = true ∧
    HostLine.wellFormed (.setval (2 ^ 64)) = false ∧ HostLine.wellFormed (.wreg (.reg .len) (2 ^ 32)) = false := by decide

/-- P1's `key NWKSKEY` line and `cmd CTR_ENC, up` expand to the accesses written out there. -/
theorem test_expand :
    HostLine.expand (.key .nwkskey (count 1 16))
      = [storeWord 0x040 0x04030201, storeWord 0x044 0x08070605, storeWord 0x048 0x0C0B0A09,
         storeWord 0x04C 0x100F0E0D] ∧
    HostLine.expand (.cmd .ctrEnc .up) = [storeWord 0x000 0x00000010] ∧
    HostLine.expand (.wreg .cmd 0x21) = HostLine.expand (.cmd .jaDec .up) ∧
    HostLine.expand (.wreg (.key .nwkskey) 0x04030201) = [storeWord 0x040 0x04030201] := by decide

/-! ### AES and CMAC (K1, K2, K4, K6, K7, T52) -/

theorem test_aesEnc :
    (aesEnc (Block.ofBytes (count 0 16)) (Block.ofBytes (str [0x00, 0x11, 0x22, 0x33, 0x44, 0x55, 0x66, 0x77,
      0x88, 0x99, 0xaa, 0xbb, 0xcc, 0xdd, 0xee, 0xff]))).toBytes
    = str [0x69, 0xc4, 0xe0, 0xd8, 0x6a, 0x7b, 0x04, 0x30, 0xd8, 0xcd, 0xb7, 0x80, 0x70, 0xb4, 0xc5, 0x5a] := by
  decide +kernel

theorem test_aesDec :
    (aesDec (Block.ofBytes (count 0 16)) (Block.ofBytes (str [0x69, 0xc4, 0xe0, 0xd8, 0x6a, 0x7b, 0x04, 0x30,
      0xd8, 0xcd, 0xb7, 0x80, 0x70, 0xb4, 0xc5, 0x5a]))).toBytes
    = str [0x00, 0x11, 0x22, 0x33, 0x44, 0x55, 0x66, 0x77, 0x88, 0x99, 0xaa, 0xbb, 0xcc, 0xdd, 0xee, 0xff] := by
  decide +kernel

/-- The key of K3 to K7. -/
def cmacKey : Block :=
  Block.ofBytes (str [0x2b, 0x7e, 0x15, 0x16, 0x28, 0xae, 0xd2, 0xa6, 0xab, 0xf7, 0x15, 0x88, 0x09, 0xcf, 0x4f, 0x3c])

/-- The message `M` of K5 to K7. -/
def cmacMessage : List Byte :=
  str [0x6b, 0xc1, 0xbe, 0xe2, 0x2e, 0x40, 0x9f, 0x96, 0xe9, 0x3d, 0x7e, 0x11, 0x73, 0x93, 0x17, 0x2a,
    0xae, 0x2d, 0x8a, 0x57, 0x1e, 0x03, 0xac, 0x9c, 0x9e, 0xb7, 0x6f, 0xac, 0x45, 0xaf, 0x8e, 0x51,
    0x30, 0xc8, 0x1c, 0x46, 0xa3, 0x5c, 0xe4, 0x11, 0xe5, 0xfb, 0xc1, 0x19, 0x1a, 0x0a, 0x52, 0xef,
    0xf6, 0x9f, 0x24, 0x45, 0xdf, 0x4f, 0x9b, 0x17, 0xad, 0x2b, 0x41, 0x7b, 0xe6, 0x6c, 0x37, 0x10]

/-- K4: the padded path, on the empty message. -/
theorem test_cmac_empty :
    (aesCmac cmacKey []).toBytes
    = str [0xbb, 0x1d, 0x69, 0x29, 0xe9, 0x59, 0x37, 0x28, 0x7f, 0xa3, 0x7d, 0x12, 0x9b, 0x75, 0x67, 0x46] := by
  decide +kernel

/-- K6: a padded block behind two full ones. -/
theorem test_cmac_40 :
    (aesCmac cmacKey (cmacMessage.take 40)).toBytes
    = str [0xdf, 0xa6, 0x67, 0x47, 0xde, 0x9a, 0xe6, 0x30, 0x30, 0xca, 0x32, 0x61, 0x14, 0x97, 0xc8, 0x27] := by
  decide +kernel

/-- K7: a complete block behind three full ones. -/
theorem test_cmac_64 :
    (aesCmac cmacKey cmacMessage).toBytes
    = str [0x51, 0xf0, 0xbe, 0xbf, 0x7e, 0x3b, 0x9d, 0x92, 0xfc, 0x49, 0x74, 0x17, 0x79, 0x36, 0x3c, 0xfe] := by
  decide +kernel

/-- T52: the MIC of the largest message, 271 CMAC bytes. -/
theorem test_cmac_largest :
    (dataState 255 (count 0 255)).dataMic .up = str [0x7d, 0xa9, 0xc6, 0x86] := by decide +kernel

/-- R165's example, round key 10. -/
theorem test_roundKey :
    (roundKey (Block.ofBytes (count 0 16)) 10).toBytes
    = str [0x13, 0x11, 0x1d, 0x7f, 0xe3, 0x94, 0x4a, 0x17, 0xf3, 0x07, 0xa7, 0x8b, 0x4d, 0x2b, 0x30, 0xc5] := by
  decide +kernel

/-- T61. -/
theorem test_counterBlock :
    counterBlock .down 0xAABBCCDD 0x12345678 3
    = str [0x01, 0, 0, 0, 0, 0x01, 0xdd, 0xcc, 0xbb, 0xaa, 0x78, 0x56, 0x34, 0x12, 0, 0x03] := by decide

/-- R240's example. -/
theorem test_b0 :
    b0 .up 0x01020304 1 14
    = str [0x49, 0, 0, 0, 0, 0, 0x04, 0x03, 0x02, 0x01, 0x01, 0, 0, 0, 0, 0x0e] := by decide

/-! ### MIC commands -/

/-- T50: `B0` alone, one complete block. -/
theorem test_micDataSet_empty :
    nextHas (exec (.micDataSet .up) (dataState 0 []))
      (fun t => t.memRead 0 4 == str [0x75, 0xf5, 0x95, 0x7d] && t.mic == 0x7D95F575 && t.statusWord == 0) = true := by
  decide +kernel

/-- P1: after encryption, the MIC of the 13-byte message. -/
theorem test_micDataSet_P1 :
    nextHas (exec (.micDataSet .up)
      { withBuf 0 (str [0x80, 4, 3, 2, 1, 0, 0, 0, 0x0a, 0xe2, 0x64, 0xd4, 0xf7]) with
        nwkskey := keyOf (count 1 16), devaddr := 0x01020304, len := 13, ciph := true })
      (fun t => t.memRead 13 4 == str [0xb5, 0x6a, 0x0e, 0x75] && t.mic == 0x750E6AB5 && t.ciph) = true := by
  decide +kernel

/-- T53. -/
theorem test_micDataChk_V1 :
    nextHas (exec (.micDataChk .up) (dataState 14 frameV1)) (fun t => t.statusWord == 0x002 && t.mic == 0) = true := by
  decide +kernel

/-- T54: the wrong direction. -/
theorem test_micDataChk_down :
    nextHas (exec (.micDataChk .down) (dataState 14 frameV1)) (fun t => t.statusWord == 0x000) = true := by
  decide +kernel

/-- T57. -/
theorem test_micJrSet :
    nextHas (exec .micJrSet (joinState 19 false joinRequest))
      (fun t => t.memRead 19 4 == str [0x3d, 0xdb, 0x4c, 0x05] && t.mic == 0x054CDB3D) = true := by decide +kernel

/-- T58. -/
theorem test_micJrSet_size :
    nextHas (exec .micJrSet (joinState 18 false [])) (fun t => t.statusWord == 0x301 && t.mem == []) = true := by
  decide +kernel

/-- P4: valid. -/
theorem test_micJrChk :
    nextHas (exec .micJrChk (joinState 19 false (joinRequest ++ str [0x3d, 0xdb, 0x4c, 0x05])))
      (fun t => t.statusWord == 0x002) = true := by decide +kernel

/-- P4: after the last MIC byte was corrupted. -/
theorem test_micJrChk_corrupted :
    nextHas (exec .micJrChk (joinState 19 false (joinRequest ++ str [0x3d, 0xdb, 0x4c, 0x04])))
      (fun t => t.statusWord == 0x000) = true := by decide +kernel

/-- T62. -/
theorem test_micJaSet :
    nextHas (exec .micJaSet (joinState 13 false joinAccept))
      (fun t => t.memRead 13 4 == str [0x5e, 0x6e, 0xc3, 0x14] && t.mic == 0x14C36E5E) = true := by decide +kernel

/-- T65: the size before the flag. -/
theorem test_micJaSet_size :
    nextHas (exec .micJaSet (joinState 12 true [])) (fun t => t.statusWord == 0x301) = true := by decide +kernel

/-- R251's example. -/
theorem test_micJaChk :
    nextHas (exec .micJaChk (joinState 13 false (joinAccept ++ str [0x5e, 0x6e, 0xc3, 0x14])))
      (fun t => t.statusWord == 0x002) = true := by decide +kernel

/-- T66: the same bytes declared ciphertext. -/
theorem test_micJaChk_ciphertext :
    nextHas (exec .micJaChk (joinState 13 true (joinAccept ++ str [0x5e, 0x6e, 0xc3, 0x14])))
      (fun t => t.statusWord == 0x000) = true := by decide +kernel

/-! ### Ciphers -/

/-- T71: downlink, `APPSKEY`, two keystream blocks. -/
theorem test_ctrEnc_T71 :
    nextHas (exec (.ctrEnc .down)
      { withBuf 0 (count 0 17) with
        appskey := keyOf (List.replicate 16 1), fport := 1, devaddr := 0x01020304, fcnt32 := 1, paylen := 17 })
      (fun t => t.memRead 0 17 == str [0x4f, 0x76, 0xf5, 0x47, 0xf5, 0xbb, 0x59, 0x8b, 0x43, 0x95, 0x69, 0x2f, 0x42,
        0x08, 0x4c, 0x17, 0x5e] && t.ciph && t.statusWord == 0) = true := by decide +kernel

/-- T74: an empty payload sets the flag and writes nothing. -/
theorem test_ctrEnc_empty :
    nextHas (exec (.ctrEnc .up) State.reset) (fun t => t.statusWord == 0x000 && t.ciph && t.mem == []) = true := by
  decide +kernel

/-- V1: "hello". -/
theorem test_ctrDec_V1 :
    nextHas (exec (.ctrDec .up)
      { withBuf 0 frameV1 with
        appskey := keyOf (List.replicate 16 1), fport := 1, devaddr := 0x01020304, fcnt32 := 1, payoff := 9,
        paylen := 5, ciph := true })
      (fun t => t.memRead 9 5 == str [0x68, 0x65, 0x6c, 0x6c, 0x6f] && !t.ciph) = true := by decide +kernel

/-- T73: bounds before the flag. -/
theorem test_ctrDec_bounds :
    nextHas (exec (.ctrDec .up) { State.reset with payoff := 500, paylen := 13 })
      (fun t => t.statusWord == 0x401 && t.mem == []) = true := by decide +kernel

/-- T80. -/
theorem test_jaEnc :
    nextHas (exec .jaEnc (joinState 13 false (joinAccept ++ str [0x5e, 0x6e, 0xc3, 0x14])))
      (fun t => t.memRead 0 17 == 0x20#8 :: joinAcceptCipher && t.ciph) = true := by decide +kernel

/-- T83. -/
theorem test_jaEnc_state :
    nextHas (exec .jaEnc (joinState 13 true [])) (fun t => t.statusWord == 0x501) = true := by decide +kernel

/-- T81. -/
theorem test_jaDec :
    nextHas (exec .jaDec (joinState 13 true (0x20#8 :: joinAcceptCipher)))
      (fun t => t.memRead 0 17 == joinAccept ++ str [0x5e, 0x6e, 0xc3, 0x14] && !t.ciph) = true := by decide +kernel

/-- T85. -/
theorem test_jaDec_size :
    nextHas (exec .jaDec (joinState 28 true [])) (fun t => t.statusWord == 0x301 && t.ciph) = true := by decide +kernel

/-! ### Field codec -/

/-- T20. -/
theorem test_encDevaddr :
    nextHas (exec .encDevaddr (codecState 0 0x01020304 [])) (fun t => t.memRead 0 4 == str [4, 3, 2, 1]) = true := by
  decide +kernel

/-- T22. -/
theorem test_encDevaddr_argument :
    nextHas (exec .encDevaddr (codecState 0 0x100000000 [4, 3, 2, 1]))
      (fun t => t.statusWord == 0x201 && t.memRead 0 4 == str [4, 3, 2, 1]) = true := by decide +kernel

/-- T36: all 64 bits of `VAL` are written. -/
theorem test_decDevaddr :
    nextHas (exec .decDevaddr (codecState 0 0x0000DEAD00000000 [1, 2, 3, 4])) (fun t => t.val == 0x04030201) = true := by
  decide +kernel

/-- T23: the last legal offset. -/
theorem test_encEui :
    nextHas (exec .encEui (codecState 504 0x0102030405060708 []))
      (fun t => t.memRead 504 8 == str [8, 7, 6, 5, 4, 3, 2, 1] && t.statusWord == 0) = true := by decide +kernel

/-- T24. -/
theorem test_encEui_bounds :
    nextHas (exec .encEui (codecState 505 0 [])) (fun t => t.statusWord == 0x401 && t.mem == []) = true := by
  decide +kernel

/-- T37. -/
theorem test_decEui :
    nextHas (exec .decEui (codecState 0 0 [8, 7, 6, 5, 4, 3, 2, 1])) (fun t => t.val == 0x0102030405060708) = true := by
  decide +kernel

/-- T28. -/
theorem test_encNonce16 :
    nextHas (exec .encNonce16 (codecState 17 0x1234 [])) (fun t => t.memRead 17 2 == str [0x34, 0x12]) = true := by
  decide +kernel

/-- T27. -/
theorem test_encNonce16_argument :
    nextHas (exec .encNonce16 (codecState 0 0x10000 [])) (fun t => t.statusWord == 0x201) = true := by decide +kernel

/-- T38. -/
theorem test_decNonce16 :
    nextHas (exec .decNonce16 (codecState 0 0 [0x34, 0x12])) (fun t => t.val == 0x1234) = true := by decide +kernel

/-- T29. -/
theorem test_encNonce24 :
    nextHas (exec .encNonce24 (codecState 0 0xABCDEF [])) (fun t => t.memRead 0 3 == str [0xef, 0xcd, 0xab]) = true := by
  decide +kernel

/-- T30. -/
theorem test_encNonce24_argument :
    nextHas (exec .encNonce24 (codecState 0 0x1000000 [])) (fun t => t.statusWord == 0x201) = true := by decide +kernel

/-- T39. -/
theorem test_decNonce24 :
    nextHas (exec .decNonce24 (codecState 0 0 [0xef, 0xcd, 0xab])) (fun t => t.val == 0xABCDEF) = true := by
  decide +kernel

/-- T41: bounds, and `VAL` stays. -/
theorem test_decNonce24_bounds :
    nextHas (exec .decNonce24 (codecState 510 7 [])) (fun t => t.statusWord == 0x401 && t.val == 7) = true := by
  decide +kernel

/-- T14: a remainder is dropped. -/
theorem test_encFreq24 :
    nextHas (exec .encFreq24 (codecState 0 868100099 [])) (fun t => t.memRead 0 3 == str [0x28, 0x76, 0x84]) = true := by
  decide +kernel

/-- T33: bounds before the value. -/
theorem test_encFreq24_bounds :
    nextHas (exec .encFreq24 (codecState 510 1677721600 [])) (fun t => t.statusWord == 0x401) = true := by
  decide +kernel

/-- T34. -/
theorem test_decFreq24 :
    nextHas (exec .decFreq24 (codecState 0 0 [0xff, 0xff, 0xff])) (fun t => t.val == 0x63FFFF9C) = true := by
  decide +kernel

/-! ### Host bus (T92 to T96, R46, R82) -/

theorem test_bus_len :
    nextHas (hostWrite 0x00D 1 0x55 State.reset) (fun t => t.len == 0) = true ∧
    nextHas (hostWrite 0x00C 4 0x1FF State.reset) (fun t => t.len == 0xFF) = true := by decide +kernel

theorem test_bus_status : nextHas (hostWrite 0x004 4 0xFFFFFFFF State.reset) (fun t => t == State.reset) = true := by
  decide +kernel

theorem test_bus_error :
    isBusError (hostWrite 0x034 4 0 State.reset) = true ∧ isBusError (hostWrite 0x001 1 0 State.reset) = true ∧
    isBusError (hostWrite 0x002 2 0 State.reset) = true ∧ isBusError (hostWrite 0x005 4 0 State.reset) = true ∧
    isBusError (hostWrite 0x070 4 0 State.reset) = true ∧ isBusError (hostWrite 0x3FE 4 0 State.reset) = true := by
  decide +kernel

/-- T96: key byte 15 is written, and neither it nor `CMD` reads back. -/
theorem test_bus_key :
    nextHas (hostWrite 0x06F 1 0xAB State.reset)
      (fun t => t.appkey == keyOf (List.replicate 15 0 ++ [0xAB]) &&
        nextHas (hostRead 0x060 4 t) (fun u => u.answer == some 0) &&
        nextHas (hostRead 0x000 4 t) (fun u => u.answer == some 0)) = true := by decide +kernel

/-- R82: a 4-byte write of `0x04030201` at 0x040 sets key bytes 0 to 3 to `01 02 03 04`. -/
theorem test_bus_key_order :
    nextHas (hostWrite 0x040 4 0x04030201 State.reset)
      (fun t => (keyBytes t.nwkskey).take 4 == str [1, 2, 3, 4]) = true := by decide +kernel

/-- The narrow read of a buffer byte, zero-extended, and the 4-byte read in wire order (R82). -/
theorem test_bus_read :
    nextHas (hostRead 0x201 1 (withBuf 0 (str [1, 0xF2, 3, 4]))) (fun t => t.answer == some 0xF2) = true ∧
    nextHas (hostRead 0x200 4 (withBuf 0 (str [1, 0xF2, 3, 4]))) (fun t => t.answer == some 0x0403F201) = true := by
  decide +kernel

/-- P6: the refused access has changed nothing, and a host that goes on finds the block as it was. -/
theorem test_after_busError :
    isBusError (step (pend (.write (.window 0x034) 4 0))) = true ∧
    (pend (.write (.window 0x034) 4 0)).afterBusError = State.reset := by decide +kernel

/-- With nothing pending the block is idle. -/
theorem test_idle : nextHas (step State.reset) (fun t => t == State.reset) = true := by decide +kernel

/-! ### Witnesses: for each statement with hypotheses, a state and operands that meet them all

Where a statement has several clauses over one input, each clause has its witness at a boundary value. -/

/-- PlatformResetFromEveryState. -/
theorem witness_platformReset : (pend .reset).pending = .reset :: [] := by decide

/-- EveryStepKeepsTheInvariant: a state that holds written bytes and an error, about to load `LEN`. -/
theorem witness_step_inv :
    (∃ s t : State, s.Inv ∧ step s = .next t ∧ s.mem ≠ [] ∧ s.err = true) :=
  ⟨{ withBuf 510 (str [1, 2]) with err := true, errcode := 5, pending := [.write (.window 0x00C) 4 13] }, _,
    by decide, rfl, by decide, rfl⟩

/-- DecodeAndEncodeAgree: both sides hold of this pair. -/
theorem witness_decode_encode :
    decode 0x00000111 = .command (.ctrDec .down) ∧ (0x00000111 : Word) = encode (.ctrDec .down) := by decide

/-- StepRunsTheDecodedCommand, with the largest legal word. -/
theorem witness_step_command :
    0x111 < 2 ^ 32 ∧ (pend (.write (.window 0x000) 4 0x111)).pending = .write (.window 0x000) 4 0x111 :: [] ∧
    decode (BitVec.ofNat 32 0x111) = .command (.ctrDec .down) := by decide

/-- IllegalWordSetsStatusOnly, with the largest word. -/
theorem witness_step_illegal :
    2 ^ 32 - 1 < 2 ^ 32 ∧ (pend (.write (.window 0x000) 4 (2 ^ 32 - 1))).pending
      = .write (.window 0x000) 4 (2 ^ 32 - 1) :: [] ∧
    decode (BitVec.ofNat 32 (2 ^ 32 - 1)) = .illegal .unassignedOp := by decide

/-- BusErrorExactlyWhenTheSpecSays: the last offset of the window, read and written. -/
theorem witness_busError_pending :
    0x3FF < 0x400 ∧ (pend (.read (.window 0x3FF) 1)).pending = .read (.window 0x3FF) 1 :: [] ∧
    (pend (.write (.window 0x3FF) 1 0)).pending = .write (.window 0x3FF) 1 0 :: [] := by decide

/-- The conditions of R84 at the edges of the reserved ranges: refused from the first reserved byte to the last. -/
theorem witness_busError_refused :
    refusedAccess 0x034 4 ∧ refusedAccess 0x03F 1 ∧ refusedAccess 0x070 1 ∧ refusedAccess 0x1FF 1 ∧
    refusedAccess 0x200 3 ∧ refusedAccess 0x201 2 :=
  ⟨.inr (.inr ⟨0, by decide, .inl (by decide)⟩), .inr (.inr ⟨0, by decide, .inl (by decide)⟩),
   .inr (.inr ⟨0, by decide, .inr (by decide)⟩), .inr (.inr ⟨0, by decide, .inr (by decide)⟩),
   .inl (by decide), .inr (.inl (by decide))⟩

/-- An access of one byte that no condition of R84 refuses. -/
theorem accepted_byte {off : Nat} (h : ¬ reservedOffset off) : ¬ refusedAccess off 1
  | .inl h1 => h1.1 rfl
  | .inr (.inl h1) => h1 (Nat.mod_one off)
  | .inr (.inr ⟨b, hb, hr⟩) => h (by rwa [Nat.lt_one_iff.1 hb] at hr)

/-- … and accepted beside those edges. -/
theorem witness_busError_accepted :
    ¬ refusedAccess 0x033 1 ∧ ¬ refusedAccess 0x040 1 ∧ ¬ refusedAccess 0x06F 1 ∧ ¬ refusedAccess 0x200 1 ∧
    ¬ refusedAccess 0x3FF 1 := by
  refine ⟨accepted_byte ?_, accepted_byte ?_, accepted_byte ?_, accepted_byte ?_, accepted_byte ?_⟩ <;>
    · unfold reservedOffset; decide

/-- ReadReturnsTheBytesInLittleEndianOrder. -/
theorem witness_read :
    0x3FF < 0x400 ∧ ¬ refusedAccess 0x3FF 1 ∧ (pend (.read (.window 0x3FF) 1)).pending = .read (.window 0x3FF) 1 :: [] :=
  ⟨by decide, witness_busError_accepted.2.2.2.2, by decide⟩

/-- BufferReadsAreMemReads, BufferBytesAreWrittenInPlace: each width at the end of the buffer, the largest value. -/
theorem witness_buffer_ranges :
    (511 % 1 = 0 ∧ 511 + 1 ≤ 512 ∧ 0xFF < 2 ^ (8 * 1)) ∧ (510 % 2 = 0 ∧ 510 + 2 ≤ 512 ∧ 0xFFFF < 2 ^ (8 * 2)) ∧
    (508 % 4 = 0 ∧ 508 + 4 ≤ 512 ∧ 0xFFFFFFFF < 2 ^ (8 * 4)) := by decide

/-- KeyRegistersReadAsZero: the first and the last bytes of the key registers. -/
theorem witness_key_ranges :
    (0x040 ≤ 0x040 ∧ 0x040 + 4 ≤ 0x070 ∧ 0x040 % 4 = 0) ∧ (0x040 ≤ 0x06F ∧ 0x06F + 1 ≤ 0x070 ∧ 0x06F % 1 = 0) := by
  decide

/-- KeysNeverReachAHostRead: a read of a key register is accepted. -/
theorem witness_keys_read : ∃ t, hostRead 0x040 4 { State.reset with nwkskey := 1 } = .next t := ⟨_, rfl⟩

/-- RegisterWritesSetTheDefinedBits: the largest word. -/
theorem witness_register_word : 0xFFFFFFFF < 2 ^ 32 := by decide

/-- RegisterBytesAreWrittenInPlace: each width at the end of a register. -/
theorem witness_register_bytes :
    (3 % 1 = 0 ∧ 3 + 1 ≤ 4 ∧ 0xFF < 2 ^ (8 * 1)) ∧ (2 % 2 = 0 ∧ 2 + 2 ≤ 4 ∧ 0xFFFF < 2 ^ (8 * 2)) ∧
    (0 % 4 = 0 ∧ 0 + 4 ≤ 4 ∧ 0xFFFFFFFF < 2 ^ (8 * 4)) := by decide

/-- KeyBytesAreWrittenInPlace: each width at the end of a key. -/
theorem witness_key_bytes :
    (15 % 1 = 0 ∧ 15 + 1 ≤ 16 ∧ 0xFF < 2 ^ (8 * 1)) ∧ (14 % 2 = 0 ∧ 14 + 2 ≤ 16 ∧ 0xFFFF < 2 ^ (8 * 2)) ∧
    (12 % 4 = 0 ∧ 12 + 4 ≤ 16 ∧ 0xFFFFFFFF < 2 ^ (8 * 4)) := by decide

/-- BufferReadReturnsTheLastWrite: a write, then a read, at the end of the buffer. -/
theorem witness_write_read :
    ∃ s t : State, s.pending = [.write (.window (0x200 + 508)) 4 0x04030201, .read (.window (0x200 + 508)) 4] ∧
      508 % 4 = 0 ∧ 508 + 4 ≤ 512 ∧ 0x04030201 < 2 ^ (8 * 4) ∧ step s = .next t :=
  ⟨{ State.reset with pending := [.write (.window (0x200 + 508)) 4 0x04030201, .read (.window (0x200 + 508)) 4] }, _,
    rfl, by decide, by decide, by decide, rfl⟩

/-- OnlyTheWindowReachesTheBlock: idle; the first byte of the window, read and written; the first address past it. -/
theorem witness_physical :
    State.reset.pending = [] ∧
    (Config.base ≤ Config.base ∧ Config.base < Config.base + 1024) ∧ Config.base + 1024 ≤ Config.base + 1024 ∧
    (pend (.read (.physical Config.base) 4)).pending = .read (.physical Config.base) 4 :: [] ∧
    (pend (.write (.physical Config.base) 4 1)).pending = .write (.physical Config.base) 4 1 :: [] ∧
    (pend (.read (.physical (Config.base + 1024)) 4)).pending = .read (.physical (Config.base + 1024)) 4 :: [] :=
  ⟨rfl, ⟨Nat.le_refl _, Nat.lt_add_of_pos_right (by decide)⟩, Nat.le_refl _, rfl, rfl, rfl⟩

/-- PseudoInstructionsExpandExactly. -/
theorem witness_pseudo : Mnemonic.micJrSet.usesDir = false ∧ (List.replicate 16 (0 : Byte)).length = 16 := by decide

/-- FailedCommandChangesStatusOnly: T89. -/
theorem witness_failed : ∃ t, runCommand 0x103 State.reset = .next t ∧ t.err = true := ⟨_, rfl, rfl⟩

/-- FirstFailingCheckGivesTheCode: an illegal word, and a command for each clause, the last with nothing failing. -/
theorem witness_codes :
    decode 0x103 = .illegal .dirMustBeZero ∧ decode 0x04 = .command .micJrChk ∧
    sizeFails .micJrChk State.reset ∧
    (¬ sizeFails .encFreq24 (codecState 510 1677721600 []) ∧ boundsFails .encFreq24 (codecState 510 1677721600 [])) ∧
    (¬ sizeFails (.ctrDec .up) State.reset ∧ ¬ boundsFails (.ctrDec .up) State.reset ∧
      stateFails (.ctrDec .up) State.reset) ∧
    (¬ boundsFails .encFreq24 (codecState 509 1677721600 []) ∧ ¬ stateFails .encFreq24 (codecState 509 1677721600 []) ∧
      argumentFails .encFreq24 (codecState 509 1677721600 [])) ∧
    (¬ boundsFails .encFreq24 (codecState 509 1677721599 []) ∧ ¬ stateFails .encFreq24 (codecState 509 1677721599 []) ∧
      ¬ argumentFails .encFreq24 (codecState 509 1677721599 [])) :=
  ⟨by decide, by decide, by show (0 : Nat) ≠ 19; decide, ⟨id, by show 509 < 510; decide⟩,
   ⟨id, by show ¬ 512 < 0 + 0; decide, rfl⟩,
   ⟨by show ¬ 509 < 509; decide, id, by show 1677721600 ≤ 1677721600; decide⟩,
   ⟨by show ¬ 509 < 509; decide, id, by show ¬ 1677721600 ≤ 1677721599; decide⟩⟩

/-- CommandsWriteOnlyTheirResults: a command that answers a next state, for each of its conditional clauses. -/
theorem witness_frame :
    ∃ t u, exec (.ctrEnc .up) State.reset = .next t ∧ writesMic (.ctrEnc .up) = false ∧ writesVal (.ctrEnc .up) = false ∧
      exec .decEui State.reset = .next u ∧ writesCiph .decEui = false := ⟨_, _, rfl, rfl, rfl, rfl, rfl⟩

/-- ValidMeansASuccessfulCheck: R251's example ends with `VALID = 1`, and without error. -/
theorem witness_valid :
    nextHas (exec .micJaChk (joinState 13 false (joinAccept ++ str [0x5e, 0x6e, 0xc3, 0x14])))
      (fun t => t.valid && !t.err) = true := by decide +kernel

/-- OnlyCommandsWriteStatusAndMic. -/
theorem witness_other_write : (0x030 : Nat) ≠ 0 ∧ ∃ t, hostWrite 0x030 4 1 State.reset = .next t :=
  ⟨by decide, _, rfl⟩

/-- The encoders: past the end by one, the last offset with the first value too wide, and with the last that fits. -/
theorem witness_encoders :
    512 < (codecState 509 0 []).foff.toNat + 4 ∧ 512 < (codecState 511 0 []).foff.toNat + 2 ∧
    512 < (codecState 510 0 []).foff.toNat + 3 ∧
    ((codecState 508 (2 ^ 32) []).foff.toNat + 4 ≤ 512 ∧ 256 ^ 4 ≤ (codecState 508 (2 ^ 32) []).val.toNat) ∧
    ((codecState 510 (2 ^ 16) []).foff.toNat + 2 ≤ 512 ∧ 256 ^ 2 ≤ (codecState 510 (2 ^ 16) []).val.toNat) ∧
    ((codecState 509 (2 ^ 24) []).foff.toNat + 3 ≤ 512 ∧ 256 ^ 3 ≤ (codecState 509 (2 ^ 24) []).val.toNat) ∧
    (codecState 508 (2 ^ 32 - 1) []).val.toNat < 256 ^ 4 ∧ (codecState 510 (2 ^ 16 - 1) []).val.toNat < 256 ^ 2 ∧
    (codecState 509 (2 ^ 24 - 1) []).val.toNat < 256 ^ 3 := by decide +kernel

/-- ENC_EUI and the decoders of eight bytes. -/
theorem witness_eui : 504 < (codecState 505 0 []).foff.toNat ∧ (codecState 504 0 []).foff.toNat ≤ 504 ∧
    512 < (codecState 505 0 []).foff.toNat + 8 ∧ (codecState 504 0 []).foff.toNat + 8 ≤ 512 := by decide +kernel

/-- ENC_FREQ24 and DEC_FREQ24. -/
theorem witness_freq :
    (codecState 509 1677721600 []).foff.toNat ≤ 509 ∧ 1677721600 ≤ (codecState 509 1677721600 []).val.toNat ∧
    256 ^ 3 ≤ (codecState 509 1677721600 []).val.toNat / 100 ∧
    (codecState 509 1677721599 []).val.toNat / 100 < 256 ^ 3 ∧ 509 < (codecState 510 0 []).foff.toNat := by
  decide +kernel

/-- FieldsRoundTrip: the largest value of each bound, at the last offset. -/
theorem witness_roundTrip :
    ((codecState 508 (2 ^ 32 - 1) []).foff.toNat + 4 ≤ 512 ∧ (codecState 508 (2 ^ 32 - 1) []).val.toNat < 2 ^ 32) ∧
    ((codecState 504 (2 ^ 64 - 1) []).foff.toNat + 8 ≤ 512 ∧ (codecState 504 (2 ^ 64 - 1) []).val.toNat < 2 ^ 64) ∧
    ((codecState 510 (2 ^ 16 - 1) []).foff.toNat + 2 ≤ 512 ∧ (codecState 510 (2 ^ 16 - 1) []).val.toNat < 2 ^ 16) ∧
    ((codecState 509 (2 ^ 24 - 1) []).foff.toNat + 3 ≤ 512 ∧ (codecState 509 (2 ^ 24 - 1) []).val.toNat < 2 ^ 24) ∧
    ((codecState 509 1677721599 []).foff.toNat + 3 ≤ 512 ∧ (codecState 509 1677721599 []).val.toNat < 1677721600) := by
  decide +kernel

/-- CodecIgnoresFlagMicAndKeys. -/
theorem witness_codec : isCodec .decFreq24 = true ∧ ∃ t, exec .decFreq24 State.reset = .next t := ⟨rfl, _, rfl⟩

/-- The join commands: the legal lengths, those beside them, and both values of the flag. -/
theorem witness_join :
    (joinState 19 false []).len.toNat = 19 ∧ (joinState 18 false []).len.toNat ≠ 19 ∧
    (joinState 20 false []).len.toNat ≠ 19 ∧
    ((joinState 12 false []).len.toNat ≠ 13 ∧ (joinState 12 false []).len.toNat ≠ 29) ∧
    ((joinState 30 false []).len.toNat ≠ 13 ∧ (joinState 30 false []).len.toNat ≠ 29) ∧
    ((joinState 13 true []).len.toNat = 13 ∧ (joinState 13 true []).ciph = true) ∧
    ((joinState 29 true []).len.toNat = 29 ∧ (joinState 29 true []).ciph = true) ∧
    ((joinState 13 false []).len.toNat = 13 ∧ (joinState 13 false []).ciph = false) ∧
    ((joinState 29 false []).len.toNat = 29 ∧ (joinState 29 false []).ciph = false) := by decide +kernel

/-- DataMicIgnoresTheFlag: both commands answer a next state. -/
theorem witness_dataMic :
    ∃ t u, exec (.micDataSet .up) State.reset = .next t ∧ exec (.micDataChk .up) State.reset = .next u :=
  ⟨_, _, rfl, rfl⟩

/-- KeyScheduleFollowsItsRecurrence: the first and the last word the recurrence gives. -/
theorem witness_schedule : (4 ≤ 4 ∧ 4 ≤ 43) ∧ (4 ≤ 43 ∧ 43 ≤ 43) := by decide

/-- DoublingReducesByTheCmacPolynomial, SboxTablesMatchTheirFormula: both sides of each case. -/
theorem witness_fields :
    beValue (Block.ofBytes (0x7F#8 :: List.replicate 15 0xFF#8)).toBytes < 2 ^ 127 ∧
    ¬ beValue (Block.ofBytes [0x80#8]).toBytes < 2 ^ 127 ∧ (0 : Byte) = 0 ∧ (1 : Byte) ≠ 0 := by decide +kernel

/-- CmacPadsAndChains: the empty message, one complete block, and the longest and the shortest padded last block and a
complete one behind full blocks. -/
theorem witness_cmac :
    CmacSplit [] [] ∧ CmacSplit [] (count 0 16) ∧ CmacSplit [count 0 16] (count 16 15) ∧
    CmacSplit [count 0 16, count 16 16] [32] ∧ CmacSplit [count 0 16, count 16 16] (count 32 16) := by
  simp only [CmacSplit]; decide

/-- CounterBlockHasTheSpecLayout: the first and the last index. -/
theorem witness_counter : (1 ≤ 1 ∧ 1 ≤ 255) ∧ (1 ≤ 255 ∧ 255 ≤ 255) := by decide

/-- The CTR commands: past the end by one, and up to the end, with both values of the flag. -/
theorem witness_payload :
    512 < ({ State.reset with payoff := 500, paylen := 13 } : State).payoff.toNat + 13 ∧
    (({ State.reset with payoff := 500, paylen := 12, ciph := true } : State).payoff.toNat + 12 ≤ 512 ∧
      ({ State.reset with payoff := 500, paylen := 12, ciph := true } : State).ciph = true) ∧
    (({ State.reset with paylen := 512 } : State).payoff.toNat
        + ({ State.reset with paylen := 512 } : State).paylen.toNat ≤ 512 ∧
      ({ State.reset with paylen := 512 } : State).ciph = false) := by decide

/-- DataFramePathRestoresTheMessage: V2's payload reaches the end of its message. -/
theorem witness_dataFrame :
    ∃ s : State, s.payoff.toNat + s.paylen.toNat ≤ s.len.toNat ∧ s.paylen ≠ 0 ∧ s.ciph = false :=
  ⟨{ State.reset with payoff := 9, paylen := 4, len := 13 }, by decide, by decide, rfl⟩

/-- MisorderingsAreDetected: each of the four ciphers ends without error somewhere. -/
theorem witness_misordering :
    (∃ t, exec (.ctrEnc .up) State.reset = .next t ∧ t.err = false) ∧
    (∃ t, exec .jaEnc (joinState 13 false []) = .next t ∧ t.err = false) ∧
    (∃ t, exec (.ctrDec .up) { State.reset with ciph := true } = .next t ∧ t.err = false) ∧
    (∃ t, exec .jaDec (joinState 13 true []) = .next t ∧ t.err = false) :=
  ⟨⟨_, rfl, rfl⟩, ⟨_, rfl, rfl⟩, ⟨_, rfl, rfl⟩, ⟨_, rfl, rfl⟩⟩

end Sys2Proof.Tests
end

section
/-! The state family: every step keeps the invariant, what the registers and keys read as, where a key write lands,
and when `VALID` is set. Each proof goes through what an operation can do, said once. -/

namespace Sys2Proof.Machine

/-! ### What a command word does -/

/-- A success update touches no event still to come. -/
theorem Effect.pending_eq {i : Instr} {s u : State} {v : Bool} (h : Effect i s u v) :
    u.pending = s.pending := by
  cases h <;> rfl

/-- Only a check can end with `VALID = 1` (R35, R340). -/
theorem Effect.isCheck_of_valid {i : Instr} {s u : State} (h : Effect i s u true) : isCheck i = true := by
  cases h with
  | check _ hi => exact hi

/-- Everything a command word can do: the error path with a code that is raised, or a command's success update. -/
theorem runCommand_cases {w : Word} {s t : State} (h : runCommand w s = .next t) :
    (∃ e : ErrCode, e ≠ .ok ∧ e ≠ .crypto ∧ t = s.raise e) ∨
    (∃ i u v, decode w = .command i ∧ Effect i s u v ∧ t = u.succeed v) := by
  rw [runCommand] at h
  split at h
  · next i hd =>
    rcases exec_cases i s with ⟨e, he, hcode⟩ | ⟨u, v, hu, hE⟩
    · rw [he] at h
      cases h
      obtain ⟨hok, hcrypto⟩ : e ≠ .ok ∧ e ≠ .crypto := by
        rcases hcode with rfl | rfl | rfl | rfl <;> decide
      exact .inl ⟨e, hok, hcrypto, rfl⟩
    · rw [hu] at h
      cases h
      exact .inr ⟨i, u, v, hd, hE, rfl⟩
  · cases h
    exact .inl ⟨.illegalCmd, by decide, by decide, rfl⟩

/-! ### `STATUS` and the queue -/

theorem State.statusLegal_succeed (u : State) (v : Bool) : (u.succeed v).statusLegal := .inl ⟨rfl, rfl⟩

/-- The error path leaves a legal `STATUS` for every code that a command raises (R341, R342). -/
theorem State.statusLegal_raise (s : State) {e : ErrCode} (hok : e ≠ .ok) (hcrypto : e ≠ .crypto) :
    (s.raise e).statusLegal := by
  refine .inr ⟨rfl, rfl, ?_⟩
  rw [State.raise_errcode]
  cases e with
  | ok => exact absurd rfl hok
  | crypto => exact absurd rfl hcrypto
  | _ => decide

/-- A success shows `VALID << 1` in `STATUS` (R35, R340). -/
theorem State.getReg_status_succeed (u : State) (v : Bool) :
    (u.succeed v).getReg .status = if v then 2 else 0 := by
  cases v <;> simp [State.getReg, State.statusWord]

theorem runCommand_statusLegal {w : Word} {s t : State} (h : runCommand w s = .next t) : t.statusLegal := by
  rcases runCommand_cases h with ⟨e, hok, hcrypto, rfl⟩ | ⟨i, u, v, _, _, rfl⟩
  · exact s.statusLegal_raise hok hcrypto
  · exact u.statusLegal_succeed v

theorem runCommand_pending {w : Word} {s t : State} (h : runCommand w s = .next t) : t.pending = s.pending := by
  rcases runCommand_cases h with ⟨e, _, _, rfl⟩ | ⟨i, u, v, _, hE, rfl⟩
  · rfl
  · exact hE.pending_eq

/-! ### What a bus access does -/

/-- Everything an accepted read can do (R82, R84). -/
theorem hostRead_cases {off w : Nat} {s t : State} (h : hostRead off w s = .next t) :
    accepts off w = true ∧ t = s.give (s.readValue off w) := by
  rw [hostRead] at h
  split at h
  · next ha => cases h; exact ⟨ha, rfl⟩
  · cases h

/-- Everything an accepted write can do (R83 to R85): it runs a command word, or it writes the bytes of its value. -/
theorem hostWrite_cases {off w v : Nat} {s t : State} (h : hostWrite off w v s = .next t) :
    (off = 0 ∧ runCommand (BitVec.ofNat 32 v) s = .next t) ∨
    (off ≠ 0 ∧ t = s.writeBytes off (leBytes w v)) := by
  rw [hostWrite] at h
  split at h
  · split at h
    · next h0 => exact .inl ⟨h0, h⟩
    · next h0 => cases h; exact .inr ⟨h0, rfl⟩
  · cases h

/-! ### The invariant -/

/-- No return of power is the next event. -/
theorem State.Inv.head_ne_powerUp {s : State} {e : HostEvent} {rest : List HostEvent} (h : s.Inv)
    (hp : s.pending = e :: rest) : e ≠ .powerUp := by
  rintro rfl
  obtain ⟨_, _, hpending⟩ := h
  exact hpending (by rw [hp]; exact List.mem_cons_self)

theorem State.Inv.consume {s : State} (h : s.Inv) : s.consume.Inv := by
  obtain ⟨hwf, hstatus, hpending⟩ := h
  exact ⟨hwf, hstatus, fun hmem => hpending (List.mem_of_mem_tail hmem)⟩

theorem State.Inv.platformReset {s : State} (h : s.Inv) : s.platformReset.Inv := by
  obtain ⟨_, _, hpending⟩ := h
  exact ⟨⟨.nil, by simp [State.platformReset, State.reset]⟩, .inl ⟨rfl, rfl⟩, hpending⟩

theorem State.Inv.writeBytes {s : State} (h : s.Inv) (off : Nat) (bs : List Byte) : (s.writeBytes off bs).Inv := by
  obtain ⟨hwf, hstatus, hpending⟩ := h
  obtain ⟨herr, hvalid, hcode, _, _, hqueue, _⟩ := s.writeBytes_frame off bs
  refine ⟨s.writeBytes_keeps_wf off bs hwf, ?_, by rwa [hqueue]⟩
  rwa [State.statusLegal, herr, hvalid, hcode]

theorem State.Inv.runCommand {w : Word} {s t : State} (h : s.Inv) (hrun : runCommand w s = .next t) : t.Inv := by
  obtain ⟨hwf, _, hpending⟩ := h
  exact ⟨runCommand_keeps_wf hrun hwf, runCommand_statusLegal hrun, by rwa [runCommand_pending hrun]⟩

theorem State.Inv.hostRead {off w : Nat} {s t : State} (h : s.Inv) (hread : hostRead off w s = .next t) : t.Inv := by
  obtain ⟨_, rfl⟩ := hostRead_cases hread
  exact h

theorem State.Inv.hostWrite {off w v : Nat} {s t : State} (h : s.Inv) (hwrite : hostWrite off w v s = .next t) :
    t.Inv := by
  rcases hostWrite_cases hwrite with ⟨_, hrun⟩ | ⟨_, rfl⟩
  · exact h.runCommand hrun
  · exact h.writeBytes off (leBytes w v)

/-- Every event but a return of power keeps the invariant (U13 is the exception). -/
theorem State.Inv.runEvent {e : HostEvent} {s t : State} (h : s.Inv) (hpower : e ≠ .powerUp)
    (hrun : runEvent e s = .next t) : t.Inv := by
  cases e with
  | read a w =>
    cases ha : offsetOf a with
    | none => rw [runEvent_read_outside ha] at hrun; cases hrun; exact h
    | some off => rw [runEvent_read ha] at hrun; exact h.hostRead hrun
  | write a w v =>
    cases ha : offsetOf a with
    | none => rw [runEvent_write_outside ha] at hrun; cases hrun; exact h
    | some off => rw [runEvent_write ha] at hrun; exact h.hostWrite hrun
  | reset => cases hrun; exact h.platformReset
  | powerUp => exact absurd rfl hpower

/-- Settles O3, by the first pending event: no event that the invariant allows breaks it. -/
theorem everyStepKeepsTheInvariant : Obligations.EveryStepKeepsTheInvariant := by
  intro s t hs hstep
  rw [step] at hstep
  split at hstep
  · cases hstep; exact hs
  · next e rest hp => exact hs.consume.runEvent (hs.head_ne_powerUp hp) hstep

/-! ### Reads of registers and keys -/

theorem State.readByte_reg (s : State) (r : Reg) (j : Nat) (h : j < 4) :
    s.readByte (r.offset + j) = byteOf (s.getReg r) j := by
  rw [State.readByte, locate_reg r j h]

theorem State.readByte_key (s : State) (k : KeyName) (j : Nat) (h : j < 16) :
    s.readByte (k.offset + j) = 0 := by
  rw [State.readByte, locate_key k j h]

/-- A 4-byte read of a register gives the register (R82, R83). -/
theorem hostRead_reg (s : State) (r : Reg) : hostRead r.offset 4 s = .next (s.give (s.getReg r)) := by
  have haccept : accepts r.offset 4 = true := by cases r <;> rfl
  have hvalue : s.readValue r.offset 4 = s.getReg r := by
    refine eq_of_byteOf (n := 4) _ _ fun b hb => ?_
    rw [State.byteOf_readValue _ _ _ _ hb, if_pos hb, State.readByte_reg _ _ _ hb]
  rw [hostRead, if_pos haccept, hvalue]

/-- `CMD` holds no state and reads as zero (R34). -/
theorem hostRead_cmd (s : State) : hostRead 0x000 4 s = .next (s.give 0) := rfl

/-- `STATUS` as a sum of its fields, which do not overlap (R35). -/
theorem State.statusWord_eq_ofNat (s : State) : s.statusWord = BitVec.ofNat 32
    ((if s.err then 1 else 0) + (if s.valid then 2 else 0) + 256 * s.errcode.toNat) := by
  have hcode : s.errcode.toNat < 256 := s.errcode.isLt
  have hshift : (s.errcode.setWidth 32 <<< 8).toNat = s.errcode.toNat <<< 8 := by
    rw [BitVec.toNat_shiftLeft, BitVec.toNat_setWidth, Nat.shiftLeft_eq]
    omega
  have hflags : s.statusWord = BitVec.ofNat 32 ((if s.err then 1 else 0) + (if s.valid then 2 else 0))
      ||| (s.errcode.setWidth 32 <<< 8) := by
    unfold State.statusWord
    cases s.err <;> cases s.valid <;> rfl
  have hlow : (if s.err then 1 else 0) + (if s.valid then 2 else 0) < 2 ^ 8 := by
    cases s.err <;> cases s.valid <;> decide
  apply BitVec.eq_of_toNat_eq
  rw [hflags, BitVec.toNat_or, hshift, BitVec.toNat_ofNat, Nat.mod_eq_of_lt (by omega), Nat.or_comm,
    ← Nat.shiftLeft_add_eq_or_of_lt hlow, BitVec.toNat_ofNat, Nat.shiftLeft_eq]
  omega

theorem State.getReg_valLo (s : State) : s.getReg .valLo = BitVec.ofNat 32 (s.val.toNat % 2 ^ 32) := by
  apply BitVec.eq_of_toNat_eq
  simp [State.getReg]

theorem State.getReg_valHi (s : State) : s.getReg .valHi = BitVec.ofNat 32 (s.val.toNat / 2 ^ 32) := by
  apply BitVec.eq_of_toNat_eq
  simp [State.getReg, Nat.shiftRight_eq_div_pow]

/-- Settles O14: each register by `hostRead_reg`, and its value as a number. -/
theorem registerReadsShowTheDefinedBits : Obligations.RegisterReadsShowTheDefinedBits := by
  intro s
  rw [← s.statusWord_eq_ofNat, ← s.getReg_valLo, ← s.getReg_valHi]
  simp only [BitVec.ofNat_toNat]
  exact ⟨hostRead_cmd s, hostRead_reg s .status, hostRead_reg s .ctrl, hostRead_reg s .len, hostRead_reg s .devaddr,
    hostRead_reg s .fcnt32, hostRead_reg s .fport, hostRead_reg s .payoff, hostRead_reg s .paylen,
    hostRead_reg s .foff, hostRead_reg s .valLo, hostRead_reg s .valHi, hostRead_reg s .mic⟩

@[simp] theorem byteOf_zero {n : Nat} (j : Nat) : byteOf (0 : BitVec n) j = 0 := by
  simp [byteOf]

/-- The three key registers cover 0x040 to 0x06F (R46). -/
theorem exists_key_of_range {off : Nat} (hlo : 0x040 ≤ off) (hhi : off < 0x070) :
    ∃ (k : KeyName) (j : Nat), j < 16 ∧ off = k.offset + j := by
  rcases Nat.lt_or_ge off 0x050 with h | h
  · exact ⟨.nwkskey, off - 0x040, by omega, by simp only [KeyName.offset]; omega⟩
  · rcases Nat.lt_or_ge off 0x060 with h' | h'
    · exact ⟨.appskey, off - 0x050, by omega, by simp only [KeyName.offset]; omega⟩
    · exact ⟨.appkey, off - 0x060, by omega, by simp only [KeyName.offset]; omega⟩

/-- The bus accepts every aligned access inside the key registers (R81). -/
theorem accepts_key_range {off w : Nat} (hlo : 0x040 ≤ off) (hhi : off + w ≤ 0x070) (hw : w = 1 ∨ w = 2 ∨ w = 4)
    (halign : off % w = 0) : accepts off w = true := by
  refine (accepts_iff off w (by omega)).2 ?_
  rintro (hwidth | hmod | ⟨b, hb, hres⟩)
  · omega
  · exact hmod halign
  · unfold reservedOffset at hres; omega

/-- Settles O15: every byte of the read is a key byte. -/
theorem keyRegistersReadAsZero : Obligations.KeyRegistersReadAsZero := by
  intro s off w hlo hhi hw halign
  have hvalue : s.readValue off w = 0 := by
    refine eq_of_byteOf (n := 4) _ _ fun b hb => ?_
    rw [State.byteOf_readValue _ _ _ _ hb]
    split
    · next hbw =>
      obtain ⟨k, j, hj, hoff⟩ := exists_key_of_range (off := off + b) (by omega) (by omega)
      rw [hoff, State.readByte_key _ _ _ hj]
      exact (byteOf_zero b).symm
    · exact (byteOf_zero b).symm
  rw [hostRead, if_pos (accepts_key_range hlo hhi hw halign), hvalue]

/-! ### Writes of keys -/

/-- An aligned write inside a key register is accepted and is a run of key bytes (R81, R83). -/
theorem hostWrite_key (s : State) (k : KeyName) {j w : Nat} (v : Nat) (hw : w = 1 ∨ w = 2 ∨ w = 4)
    (halign : j % w = 0) (hin : j + w ≤ 16) :
    hostWrite (k.offset + j) w v s = .next (s.writeBytes (k.offset + j) (leBytes w v)) := by
  have hk : 0x040 ≤ k.offset ∧ k.offset + 16 ≤ 0x070 ∧ k.offset % 16 = 0 := by cases k <;> decide
  have hmod : (k.offset + j) % w = 0 := by rcases hw with rfl | rfl | rfl <;> omega
  have haccept : acceptsWrite (k.offset + j) w = true := by
    rw [acceptsWrite, accepts_key_range (by omega) (by omega) hw hmod]
    simp only [Bool.true_and, Bool.or_eq_true, beq_iff_eq, decide_eq_true_eq]
    omega
  rw [hostWrite, if_pos haccept, if_neg (by omega)]

/-- Settles O19, by `State.writeBytes_key`. -/
theorem keyBytesAreWrittenInPlace : Obligations.KeyBytesAreWrittenInPlace := by
  intro s k j w v hw halign hin _
  obtain ⟨key, hkey, hbytes⟩ := s.writeBytes_key k j (leBytes w v) (by simpa using hin)
  refine ⟨s.setKey k key, by rw [hostWrite_key s k v hw halign hin, hkey], by simp, fun b hb => ?_⟩
  rw [State.getKey_setKey, hbytes b hb, leBytes_length]
  split
  · next hrange => exact leBytes_getD w v (b - j) (by omega)
  · rfl

/-! ### `VALID` -/

/-- Settles O27: a command either raises, with `VALID` clear, or succeeds, and then only a check can set `VALID`. -/
theorem validMeansASuccessfulCheck : Obligations.ValidMeansASuccessfulCheck := by
  intro i s t h
  rcases exec_cases i s with ⟨e, he, _⟩ | ⟨u, v, hu, hE⟩
  · rw [he] at h
    cases h
    simp
  · rw [hu] at h
    cases h
    refine ⟨fun hv => ?_, fun _ => u.getReg_status_succeed v⟩
    rw [State.succeed_valid] at hv
    subst hv
    exact ⟨hE.isCheck_of_valid, rfl⟩

end Sys2Proof.Machine
end

section
/-! The memory family: which host accesses the bus refuses, what an accepted read gives, and where the bytes of an
accepted write land. Each access first becomes one named operation (`runCommand`, `State.setReg`, `State.memWrite`,
`State.give`); the claims then speak of that operation. -/

namespace Sys2Proof.Machine

/-! ### The pending access -/

/-- A step with a read of the block pending is that read (R17, R81). -/
theorem step_read {s : State} {rest : List HostEvent} {a : BusAddr} {off w : Nat} (ha : offsetOf a = some off)
    (hp : s.pending = .read a w :: rest) : step s = hostRead off w { s with pending := rest, answer := none } :=
  (step_cons hp).trans (runEvent_read ha w _)

/-- A step with a write of the block pending is that write (R17, R81). -/
theorem step_write {s : State} {rest : List HostEvent} {a : BusAddr} {off w v : Nat} (ha : offsetOf a = some off)
    (hp : s.pending = .write a w v :: rest) :
    step s = hostWrite off w v { s with pending := rest, answer := none } :=
  (step_cons hp).trans (runEvent_write ha w v _)

/-- Settles O22: both names of an access in the window give the same offset, and the others give none. -/
theorem onlyTheWindowReachesTheBlock : Obligations.OnlyTheWindowReachesTheBlock := by
  refine ⟨Nat.mul_mod_right 1024 Config.baseKiB, fun s hp => step_nil hp, fun s rest addr w v =>
    ⟨fun hlo hhi => ⟨fun hp => ?_, fun hp => ?_⟩, fun hout hp => ?_⟩⟩
  · rw [step_read (offsetOf_inside hlo hhi) hp, step_read rfl rfl]
  · rw [step_write (offsetOf_inside hlo hhi) hp, step_write rfl rfl]
  · rcases hp with hp | hp
    · rw [step_cons hp, runEvent_read_outside (offsetOf_outside hout)]
    · rw [step_cons hp, runEvent_write_outside (offsetOf_outside hout)]

/-! ### A write of a command word -/

/-- The 4-byte write at offset 0 runs its value as a command word (R85). -/
theorem hostWrite_cmd (s : State) (v : Nat) : hostWrite 0x000 4 v s = runCommand (BitVec.ofNat 32 v) s := rfl

theorem runCommand_of_command {w : Word} {i : Instr} (h : decode w = .command i) (s : State) :
    runCommand w s = exec i s := by
  rw [runCommand, h]

/-- A command word always gives a next state (R85, R359). -/
theorem exists_next_runCommand (w : Word) (s : State) : ∃ t, runCommand w s = .next t := by
  rw [runCommand]
  split
  · next i _ =>
    rcases exec_cases i s with ⟨e, he, _⟩ | ⟨u, valid, hu, _⟩
    · exact ⟨_, he⟩
    · exact ⟨_, hu⟩
  · exact ⟨_, rfl⟩

/-- Settles O8, by `step_write` and `hostWrite_cmd`. -/
theorem stepRunsTheDecodedCommand : Obligations.StepRunsTheDecodedCommand := by
  intro s rest v i _ hp hd
  rw [step_write rfl hp, hostWrite_cmd, runCommand_of_command hd]

/-! ### Refused accesses -/

theorem hostRead_eq_fault_iff (off w : Nat) (s : State) :
    hostRead off w s = .fault .busError ↔ ¬ accepts off w = true := by
  rw [hostRead]
  split <;> simp [*]

/-- An accepted write never ends in a fault, for a command word has a next state. -/
theorem hostWrite_eq_fault_iff (off w v : Nat) (s : State) :
    hostWrite off w v s = .fault .busError ↔ ¬ acceptsWrite off w = true := by
  rw [hostWrite]
  split
  · next h =>
    obtain ⟨t, ht⟩ := exists_next_runCommand (BitVec.ofNat 32 v) s
    split <;> simp [h, ht]
  · next h => simp [h]

/-- Inside the window the bus accepts a write unless R84 refuses the access or it is a narrow write to `CMD`. -/
theorem acceptsWrite_iff (off w : Nat) (h : off < 0x400) :
    acceptsWrite off w = true ↔ ¬ (refusedAccess off w ∨ ((w = 1 ∨ w = 2) ∧ off < 0x004)) := by
  rw [acceptsWrite, Bool.and_eq_true, accepts_iff off w h, not_or]
  refine and_congr_right fun hok => ?_
  have hw : w = 1 ∨ w = 2 ∨ w = 4 := by
    by_contra hw
    exact hok (.inl (by omega))
  simp only [Bool.or_eq_true, beq_iff_eq, decide_eq_true_eq]
  omega

/-- A host that survives a `BusError` goes on from the state it found, without the access (R84, R346). -/
theorem State.afterBusError_eq {s : State} {e : HostEvent} {rest : List HostEvent} (hp : s.pending = e :: rest) :
    s.afterBusError = { s with pending := rest, answer := none } := by
  rw [State.afterBusError, State.consume, hp, List.tail_cons]

/-- Settles O10: a fault is a refusal of the bus, and the bus refuses what R84 says. -/
theorem busErrorExactlyWhenTheSpecSays : Obligations.BusErrorExactlyWhenTheSpecSays := by
  intro s rest off w v hoff
  refine ⟨fun hp => ?_, fun hp => ?_, fun _ hp => State.afterBusError_eq hp⟩
  · rw [step_read rfl hp, hostRead_eq_fault_iff, accepts_iff off w hoff, not_not]
  · rw [step_write rfl hp, hostWrite_eq_fault_iff, acceptsWrite_iff off w hoff, not_not]

/-! ### Accepted accesses -/

/-- An aligned access of a bus width to defined bytes is accepted (R81). -/
theorem accepts_of_defined {off w : Nat} (hw : w = 1 ∨ w = 2 ∨ w = 4) (halign : off % w = 0)
    (hdef : ∀ b < w, defined (off + b) = true) : accepts off w = true := by
  have hall : (List.range w).all (fun b => defined (off + b)) = true :=
    List.all_eq_true.2 fun b hb => hdef b (List.mem_range.1 hb)
  rw [accepts, hall]
  simpa [or_assoc] using And.intro hw halign

theorem accepts_buf {a w : Nat} (hw : w = 1 ∨ w = 2 ∨ w = 4) (halign : a % w = 0) (hin : a + w ≤ 512) :
    accepts (0x200 + a) w = true := by
  refine accepts_of_defined hw (by rcases hw with rfl | rfl | rfl <;> omega) fun b hb => ?_
  rw [defined, Nat.add_assoc, locate_buf (a + b) (by omega)]
  rfl

theorem accepts_reg (r : Reg) {j w : Nat} (hw : w = 1 ∨ w = 2 ∨ w = 4) (halign : j % w = 0) (hin : j + w ≤ 4) :
    accepts (r.offset + j) w = true := by
  have hr : r.offset % 4 = 0 := by cases r <;> rfl
  refine accepts_of_defined hw (by rcases hw with rfl | rfl | rfl <;> omega) fun b hb => ?_
  rw [defined, Nat.add_assoc, locate_reg r (j + b) (by omega)]
  rfl

theorem hostRead_of_accepts {off w : Nat} (h : accepts off w = true) (s : State) :
    hostRead off w s = .next (s.give (s.readValue off w)) :=
  if_pos h

/-- An accepted write above `CMD` writes the bytes of its value (R82, R83). -/
theorem hostWrite_of_accepts {off w : Nat} (h : accepts off w = true) (hoff : 0x004 ≤ off) (v : Nat) (s : State) :
    hostWrite off w v s = .next (s.writeBytes off (leBytes w v)) := by
  have haccept : acceptsWrite off w = true := by simp [acceptsWrite, h, hoff]
  rw [hostWrite, if_pos haccept, if_neg (by omega)]

/-! ### Reads -/

/-- What the host reads does not depend on the model's own queue and answer. -/
theorem State.readByte_queue (s : State) (p : List HostEvent) (x : Option Word) (off : Nat) :
    ({ s with pending := p, answer := x } : State).readByte off = s.readByte off := by
  unfold State.readByte
  split
  · rfl
  · next r j _ => cases r <;> rfl
  · rfl
  · rfl
  · rfl

/-- Settles O12, by `State.byteOf_readValue`. -/
theorem readReturnsTheBytesInLittleEndianOrder : Obligations.ReadReturnsTheBytesInLittleEndianOrder := by
  intro s rest off w hoff hok hp
  rw [step_read rfl hp, hostRead_of_accepts ((accepts_iff off w hoff).2 hok)]
  refine ⟨_, rfl, fun b hb => ?_⟩
  rw [State.byteOf_readValue _ _ _ _ hb, State.readByte_queue]

theorem hostRead_buf (s : State) {a w : Nat} (hw : w = 1 ∨ w = 2 ∨ w = 4) (halign : a % w = 0) (hin : a + w ≤ 512) :
    hostRead (0x200 + a) w s = .next (s.give (BitVec.ofNat 32 (leValue (s.memRead a w)))) := by
  rw [hostRead_of_accepts (accepts_buf hw halign hin), s.readValue_buf a w hin]

/-- Settles O13, by `hostRead_buf`. -/
theorem bufferReadsAreMemReads : Obligations.BufferReadsAreMemReads :=
  fun s _ _ hw halign hin => hostRead_buf s hw halign hin

/-! ### Writes of the buffer -/

/-- An accepted write inside the buffer is a `MemWrite` (R83). -/
theorem hostWrite_buf (s : State) {a w : Nat} (v : Nat) (hw : w = 1 ∨ w = 2 ∨ w = 4) (halign : a % w = 0)
    (hin : a + w ≤ 512) : hostWrite (0x200 + a) w v s = .next (s.memWrite a (leBytes w v)) := by
  rw [hostWrite_of_accepts (accepts_buf hw halign hin) (by omega), s.writeBytes_buf a _ (by simpa using hin)]

/-- Settles O20: the write is a `MemWrite` of the bytes of the value. -/
theorem bufferBytesAreWrittenInPlace : Obligations.BufferBytesAreWrittenInPlace := by
  intro s a w v hw halign hin _
  refine ⟨_, hostWrite_buf s v hw halign hin, rfl, fun b hb => ?_, fun x hx => ?_⟩
  · rw [s.bufByte_memWrite_inside a b _ (by simpa using hb), leBytes_getD w v b hb]
  · exact s.bufByte_memWrite_outside a x _ (by simpa using hx)

/-- A `MemRead` gives back the value whose bytes were written there. -/
theorem State.leValue_memRead_memWrite (s : State) (a : Nat) {w v : Nat} (hv : v < 2 ^ (8 * w)) :
    leValue ((s.memWrite a (leBytes w v)).memRead a w) = v := by
  have hread : (s.memWrite a (leBytes w v)).memRead a w = leBytes w v := by
    simpa using s.memRead_memWrite_same a (leBytes w v)
  rw [hread, leValue_leBytes w v (by rwa [Nat.pow_mul] at hv)]

/-- Settles O21: the first step is a `MemWrite`, the second a `MemRead` of the same bytes. -/
theorem bufferReadReturnsTheLastWrite : Obligations.BufferReadReturnsTheLastWrite := by
  intro s t rest a w v hw halign hin hv hp hstep
  rw [step_write rfl hp, hostWrite_buf _ v hw halign hin] at hstep
  cases hstep
  refine ⟨_, (step_read rfl rfl).trans (hostRead_buf _ hw halign hin), ?_, rfl⟩
  exact congrArg (fun x => some (BitVec.ofNat 32 x)) (State.leValue_memRead_memWrite _ a hv)

/-! ### Writes of registers -/

/-- An aligned write inside a register is one write of that register, of a value with those bytes in place (R83). -/
theorem hostWrite_reg (s : State) (r : Reg) {j w : Nat} (v : Nat) (hw : w = 1 ∨ w = 2 ∨ w = 4) (halign : j % w = 0)
    (hin : j + w ≤ 4) :
    ∃ x, hostWrite (r.offset + j) w v s = .next (s.setReg r x) ∧ ∀ b < 4, byteOf x b =
      if j ≤ b ∧ b < j + w then BitVec.ofNat 8 (v / 256 ^ (b - j)) else byteOf (s.getReg r) b := by
  have hr : 0x004 ≤ r.offset := by cases r <;> decide
  obtain ⟨x, hx, hbytes⟩ := s.writeBytes_reg r j (leBytes w v) (by simpa using hin)
  refine ⟨x, by rw [hostWrite_of_accepts (accepts_reg r hw halign hin) (by omega), hx], fun b hb => ?_⟩
  rw [hbytes b hb, leBytes_length]
  split
  · next hrange => exact leBytes_getD w v (b - j) (by omega)
  · rfl

/-- A 4-byte write of a register writes the value (R82, R83). -/
theorem hostWrite_reg_word (s : State) (r : Reg) (v : Nat) :
    hostWrite r.offset 4 v s = .next (s.setReg r (BitVec.ofNat 32 v)) := by
  obtain ⟨x, hx, hbytes⟩ := hostWrite_reg s r (j := 0) (w := 4) v (by omega) rfl (by omega)
  have hxv : x = BitVec.ofNat 32 v := eq_of_byteOf (n := 4) _ _ fun b hb => by
    rw [hbytes b hb, if_pos (by omega), byteOf_ofNat 32 v b (by omega), Nat.sub_zero]
  rw [← hxv]
  exact hx

/-- Two words side by side, as a number: `VAL = VAL_HI:VAL_LO` (R44). -/
theorem append_eq_ofNat (hi lo : Word) : hi ++ lo = BitVec.ofNat 64 (2 ^ 32 * hi.toNat + lo.toNat) := by
  have hhi : hi.toNat < 2 ^ 32 := hi.isLt
  have hlo : lo.toNat < 2 ^ 32 := lo.isLt
  apply BitVec.eq_of_toNat_eq
  rw [BitVec.toNat_append, Nat.shiftLeft_eq, Nat.mul_comm, ← Nat.two_pow_add_eq_or_of_lt hlo, BitVec.toNat_ofNat]
  omega

theorem State.setReg_valLo (s : State) {v : Nat} (hv : v < 2 ^ 32) : s.setReg .valLo (BitVec.ofNat 32 v) =
    { s with val := BitVec.ofNat 64 (2 ^ 32 * (s.val.toNat / 2 ^ 32) + v) } := by
  have hval : s.val.toNat < 2 ^ 64 := s.val.isLt
  have hhi : (s.val.extractLsb' 32 32).toNat = s.val.toNat / 2 ^ 32 := by
    rw [BitVec.extractLsb'_toNat, Nat.shiftRight_eq_div_pow]
    omega
  rw [State.setReg, append_eq_ofNat, hhi, BitVec.toNat_ofNat, Nat.mod_eq_of_lt hv]
  rfl

theorem State.setReg_valHi (s : State) {v : Nat} (hv : v < 2 ^ 32) : s.setReg .valHi (BitVec.ofNat 32 v) =
    { s with val := BitVec.ofNat 64 (2 ^ 32 * v + s.val.toNat % 2 ^ 32) } := by
  rw [State.setReg, append_eq_ofNat, BitVec.toNat_ofNat, Nat.mod_eq_of_lt hv, BitVec.extractLsb'_toNat]
  rfl

theorem State.setReg_ctrl (s : State) (v : Nat) :
    s.setReg .ctrl (BitVec.ofNat 32 v) = { s with ciph := decide (v % 2 = 1) } := by
  rw [State.setReg, BitVec.getLsbD_ofNat, Nat.testBit_zero]
  rfl

/-- The low bits of a 32-bit value are those of the number. -/
theorem setWidth_ofNat_of_le {n : Nat} (hn : n ≤ 32) (v : Nat) :
    (BitVec.ofNat 32 v).setWidth n = BitVec.ofNat n v := by
  apply BitVec.eq_of_toNat_eq
  rw [BitVec.toNat_setWidth, BitVec.toNat_ofNat, BitVec.toNat_ofNat, Nat.mod_mod_of_dvd _ (Nat.pow_dvd_pow 2 hn)]

/-- Settles O17: each register by `hostWrite_reg_word`, and what `State.setReg` keeps of the value. -/
theorem registerWritesSetTheDefinedBits : Obligations.RegisterWritesSetTheDefinedBits := by
  intro s v hv
  have h8 := setWidth_ofNat_of_le (n := 8) (by omega) v
  have h9 := setWidth_ofNat_of_le (n := 9) (by omega) v
  have h10 := setWidth_ofNat_of_le (n := 10) (by omega) v
  rw [← s.setReg_ctrl v, ← s.setReg_valLo hv, ← s.setReg_valHi hv, ← h8, ← h9, ← h10]
  exact ⟨hostWrite_reg_word s .status v, hostWrite_reg_word s .ctrl v, hostWrite_reg_word s .len v,
    hostWrite_reg_word s .devaddr v, hostWrite_reg_word s .fcnt32 v, hostWrite_reg_word s .fport v,
    hostWrite_reg_word s .payoff v, hostWrite_reg_word s .paylen v, hostWrite_reg_word s .foff v,
    hostWrite_reg_word s .valLo v, hostWrite_reg_word s .valHi v, hostWrite_reg_word s .mic v⟩

theorem byteOf_not {n : Nat} (v : BitVec n) (j : Nat) (h : 8 * (j + 1) ≤ n) : byteOf (~~~v) j = ~~~(byteOf v j) := by
  apply BitVec.eq_of_getLsbD_eq
  intro i hi
  have hin : 8 * j + i < n := by omega
  simp only [byteOf_getLsbD, BitVec.getLsbD_not, hi, hin, decide_true, Bool.true_and]

/-- A byte of a register after a host write, bit by bit under the byte of the mask (R83). -/
theorem State.byteOf_getReg_setReg (s : State) (r : Reg) (x : Word) {b : Nat} (hb : b < 4) :
    byteOf ((s.setReg r x).getReg r) b =
      (byteOf (s.getReg r) b &&& ~~~(byteOf (writableMask r) b)) ||| (byteOf x b &&& byteOf (writableMask r) b) := by
  rw [s.getReg_setReg, byteOf_or, byteOf_and, byteOf_and, byteOf_not _ _ (by omega)]

/-- Writing back the bits under a mask changes nothing. -/
theorem masked_write_self {n : Nat} (x m : BitVec n) : (x &&& ~~~m) ||| (x &&& m) = x := by
  rw [← BitVec.and_or_distrib_left, BitVec.or_comm, BitVec.or_not_self, BitVec.and_allOnes]

/-- Settles O18: the write is one `State.setReg` of a value that differs from the register in those bytes only. -/
theorem registerBytesAreWrittenInPlace : Obligations.RegisterBytesAreWrittenInPlace := by
  intro s r j w v hw halign hin _
  obtain ⟨x, hx, hbytes⟩ := hostWrite_reg s r v hw halign hin
  refine ⟨_, hx, fun b hb => ?_, fun r' hr => s.getReg_setReg_ne r r' x hr, fun k => s.setReg_getKey r x k,
    s.setReg_mem r x, s.setReg_draw r x, s.setReg_pending r x, s.setReg_answer r x⟩
  rw [s.byteOf_getReg_setReg r x hb, hbytes b hb]
  split
  · rfl
  · exact masked_write_self _ _

end Sys2Proof.Machine
end

section
/-! The encoding family: the decoder and the encoder are inverse on every word, the illegal words are the three classes
of R124, what the host's lines expand to, and what a command may write. A word is handled through its three fields, a
command through its success update. -/

namespace Sys2Proof

/-! ### The fields of a command word -/

/-- The fields of the word of every command (R120, R121). -/
theorem wordShape (i : Instr) : Laws.WordShape.Statement i := by
  cases i with
  | micDataSet d => exact Laws.WordShape.micDataSet d
  | micDataChk d => exact Laws.WordShape.micDataChk d
  | micJrSet => exact Laws.WordShape.micJrSet
  | micJrChk => exact Laws.WordShape.micJrChk
  | micJaSet => exact Laws.WordShape.micJaSet
  | micJaChk => exact Laws.WordShape.micJaChk
  | ctrEnc d => exact Laws.WordShape.ctrEnc d
  | ctrDec d => exact Laws.WordShape.ctrDec d
  | jaEnc => exact Laws.WordShape.jaEnc
  | jaDec => exact Laws.WordShape.jaDec
  | encDevaddr => exact Laws.WordShape.encDevaddr
  | decDevaddr => exact Laws.WordShape.decDevaddr
  | encEui => exact Laws.WordShape.encEui
  | decEui => exact Laws.WordShape.decEui
  | encNonce16 => exact Laws.WordShape.encNonce16
  | decNonce16 => exact Laws.WordShape.decNonce16
  | encNonce24 => exact Laws.WordShape.encNonce24
  | decNonce24 => exact Laws.WordShape.decNonce24
  | encFreq24 => exact Laws.WordShape.encFreq24
  | decFreq24 => exact Laws.WordShape.decFreq24

/-- `OP`, `DIR` and a zero `RSV` leave no bit of a word open (R120). -/
theorem word_ext_of_fields {w w' : Word} (hop : opField w = opField w') (hdir : dirField w = dirField w')
    (hrsv : rsvField w = 0) (hrsv' : rsvField w' = 0) : w = w' := by
  rw [← BitVec.toNat_inj, opField_toNat, opField_toNat] at hop
  have hbit : w.toNat / 256 % 2 = 1 ↔ w'.toNat / 256 % 2 = 1 := by
    rw [← dirField_eq_down, ← dirField_eq_down, hdir]
  rw [rsvField_eq_zero] at hrsv hrsv'
  apply BitVec.eq_of_toNat_eq
  omega

/-- A word is the encoding of a command exactly when its fields are those of the command (R120, R121). -/
theorem eq_encode_iff (w : Word) (i : Instr) :
    w = encode i ↔ opField w = i.mnemonic.opcode ∧ dirField w = i.dir ∧ rsvField w = 0 := by
  obtain ⟨hop, hdir, hrsv, _, _⟩ := wordShape i
  constructor
  · rintro rfl
    exact ⟨hop, hdir, hrsv⟩
  · rintro ⟨hop', hdir', hrsv'⟩
    exact word_ext_of_fields (hop'.trans hop.symm) (hdir'.trans hdir.symm) hrsv' hrsv

/-! ### What the decoder accepts -/

/-- The opcode of a command selects its row (R121). -/
theorem rowOf_self (i : Instr) : rowOf i.mnemonic.opcode.toNat i.dir = some i := by
  cases i <;> rfl

/-- Only a command that uses its direction can be downlink (R121). -/
theorem Instr.usesDir_of_dir_down {i : Instr} (h : i.dir = .down) : i.mnemonic.usesDir = true := by
  obtain ⟨_, _, _, _, hwf⟩ := wordShape i
  simpa [Instr.wellFormed, cmdWellFormed, h] using hwf

/-- The decoder accepts a word exactly when its fields are those of the command (R123). -/
theorem decode_eq_command_iff (w : Word) (i : Instr) :
    decode w = .command i ↔ opField w = i.mnemonic.opcode ∧ dirField w = i.dir ∧ rsvField w = 0 := by
  constructor
  · intro h
    rcases decode_cases w with ⟨_, hw⟩ | ⟨j, hj, ⟨_, hw⟩ | ⟨_, _, _, hw⟩ | ⟨hrsv, hdir, hw⟩⟩ <;>
      rw [h] at hw <;> cases hw
    obtain ⟨hop, hused, hunused⟩ := rowOf_opcode hj
    refine ⟨BitVec.eq_of_toNat_eq hop.symm, ?_, hrsv⟩
    cases hu : i.mnemonic.usesDir with
    | true => exact (hused hu).symm
    | false =>
      rw [hunused hu]
      simpa [hu] using hdir
  · rintro ⟨hop, hdir, hrsv⟩
    have hlegal : ¬ (i.dir = .down ∧ i.mnemonic.usesDir = false) := by
      rintro ⟨hdown, hunused⟩
      rw [Instr.usesDir_of_dir_down hdown] at hunused
      cases hunused
    simp only [decode, hop, hdir, rowOf_self, hrsv, ne_eq, not_true_eq_false, if_false, if_neg hlegal]

/-- Settles O6: the decoder and the encoder both ask for the three fields of the command. -/
theorem decodeAndEncodeAgree : Obligations.DecodeAndEncodeAgree := fun w i =>
  (decode_eq_command_iff w i).trans (eq_encode_iff w i).symm

/-! ### The illegal words -/

/-- An opcode outside the table of R121, by the runs of R124. -/
def UnassignedOp (op : Nat) : Prop :=
  op = 0x00 ∨ (0x07 ≤ op ∧ op ≤ 0x0F) ∨ (0x12 ≤ op ∧ op ≤ 0x1F) ∨ (0x22 ≤ op ∧ op ≤ 0x2F) ∨ 0x3A ≤ op

/-- An opcode that is none of the four marked "DIR used" in R121. -/
def DirlessOp (op : Nat) : Prop := op ≠ 0x01 ∧ op ≠ 0x02 ∧ op ≠ 0x10 ∧ op ≠ 0x11

theorem rowOf_eq_none_iff (op : Nat) (d : Dir) : rowOf op d = none ↔ UnassignedOp op := by
  unfold rowOf UnassignedOp
  split
  case h_21 =>
    simp_all only [imp_false, true_iff]
    omega
  all_goals simp

theorem Mnemonic.usesDir_eq_false_iff (m : Mnemonic) : m.usesDir = false ↔ DirlessOp m.opcode.toNat := by
  unfold DirlessOp
  cases m <;> decide

theorem not_exists_command_iff (w : Word) :
    (¬ ∃ i, decode w = .command i) ↔ ∃ why, decode w = .illegal why := by
  cases decode w <;> simp

/-- The decoder rejects a word for one of the three reasons of R124. -/
theorem exists_illegal_iff (w : Word) :
    (∃ why, decode w = .illegal why) ↔
      UnassignedOp (w.toNat % 256) ∨ w.toNat / 512 ≠ 0 ∨ (w.toNat / 256 % 2 = 1 ∧ DirlessOp (w.toNat % 256)) := by
  rw [← rowOf_eq_none_iff _ (dirField w), Ne, ← rsvField_eq_zero, ← dirField_eq_down, ← opField_toNat]
  rcases decode_cases w with ⟨hrow, hw⟩ | ⟨i, hrow, hfields⟩
  · exact iff_of_true ⟨_, hw⟩ (.inl hrow)
  · obtain ⟨hop, _, _⟩ := rowOf_opcode hrow
    rw [hrow, ← hop, ← i.mnemonic.usesDir_eq_false_iff]
    rcases hfields with ⟨hrsv, hw⟩ | ⟨hrsv, hdir, hunused, hw⟩ | ⟨hrsv, hlegal, hw⟩
    · exact iff_of_true ⟨_, hw⟩ (.inr (.inl hrsv))
    · exact iff_of_true ⟨_, hw⟩ (.inr (.inr ⟨hdir, hunused⟩))
    · rcases hlegal with hlegal | hlegal <;> simp [hw, hrsv, hlegal]

/-- Settles O5: the commands by O6, the illegal words by their fields. -/
theorem writtenWordsDecode : Obligations.WrittenWordsDecode := by
  have hcmd : ∀ {w : Word} {i : Instr}, w = encode i → decode w = .command i := (decodeAndEncodeAgree _ _).2
  have hdirless : DirlessOp 0x03 := by unfold DirlessOp; decide
  exact ⟨hcmd rfl, hcmd rfl, hcmd rfl, hcmd rfl, hcmd rfl, hcmd rfl, hcmd rfl, hcmd rfl,
    (exists_illegal_iff _).2 (.inl (.inl rfl)),
    (exists_illegal_iff _).2 (.inr (.inr ⟨rfl, hdirless⟩)),
    (exists_illegal_iff _).2 (.inr (.inl (by decide)))⟩

namespace Machine

/-- An illegal word takes the error path with `E_ILLEGAL_CMD` (R123, R342). -/
theorem runCommand_of_illegal {w : Word} {why : IllegalWord} (h : decode w = .illegal why) (s : State) :
    runCommand w s = .next { s with err := true, valid := false, errcode := 1 } := by
  rw [runCommand, h]
  rfl

/-- Settles O7: the three classes are those of `exists_illegal_iff`, and an illegal word takes the error path. -/
theorem illegalWordsAreThoseOfTheSpec : Obligations.IllegalWordsAreThoseOfTheSpec := by
  intro w
  refine (exists_illegal_iff w).symm.trans ((not_exists_command_iff w).symm.trans ?_)
  refine (and_iff_left_of_imp fun h => ?_).symm
  obtain ⟨why, hw⟩ := (not_exists_command_iff w).1 h
  exact runCommand_of_illegal hw

/-- Settles O9, by `step_write` and `hostWrite_cmd`. -/
theorem illegalWordSetsStatusOnly : Obligations.IllegalWordSetsStatusOnly := by
  intro s rest v why _ hp hd
  rw [step_write rfl hp, hostWrite_cmd, runCommand_of_illegal hd]

end Machine

/-! ### Host lines -/

/-- The two fields of `w = (d << 8) | op` do not overlap (R120). -/
theorem cmdWord_eq_ofNat (m : Mnemonic) (d : Dir) :
    cmdWord m d = BitVec.ofNat 32 (m.opcode.toNat + if d = .down then 0x100 else 0) := by
  cases m <;> cases d <;> rfl

theorem expand_cmd (m : Mnemonic) (d : Dir) : HostLine.expand (.cmd m d)
    = [.write (.window 0x000) 4 (m.opcode.toNat + if d = .down then 0x100 else 0)] := by
  have hop : m.opcode.toNat < 256 := m.opcode.isLt
  rw [HostLine.expand, storeWord, cmdWord_eq_ofNat, BitVec.toNat_ofNat, Nat.mod_eq_of_lt (by split <;> omega)]

/-- `down` on a command that takes no direction gives the third class of R124. -/
theorem exists_illegal_of_down {m : Mnemonic} (h : m.usesDir = false) :
    ∃ why, decode (BitVec.ofNat 32 (m.opcode.toNat + 0x100)) = .illegal why := by
  have hop : m.opcode.toNat < 256 := m.opcode.isLt
  have hlow : (m.opcode.toNat + 0x100) % 2 ^ 32 % 256 = m.opcode.toNat := by omega
  rw [exists_illegal_iff, BitVec.toNat_ofNat, hlow, ← m.usesDir_eq_false_iff]
  exact .inr (.inr ⟨by omega, h⟩)

/-- The value of a run of a string, one byte at a time (R11). -/
theorem leValue_take_drop_succ (bytes : List Byte) (k n : Nat) :
    Machine.leValue ((bytes.drop k).take (n + 1))
      = (bytes.getD k 0).toNat + 256 * Machine.leValue ((bytes.drop (k + 1)).take n) := by
  rw [← List.drop_drop, List.getD_eq_getElem?_getD, ← List.head?_drop]
  cases bytes.drop k <;> simp [Machine.leValue]

/-- The word of four key bytes is their little-endian value (R11, R128). -/
theorem keyWordOf_eq_leValue (bytes : List Byte) (j : Nat) :
    keyWordOf bytes j = Machine.leValue ((bytes.drop (4 * j)).take 4) := by
  simp only [leValue_take_drop_succ, List.take_zero, Machine.leValue, keyWordOf, Nat.add_assoc, Nat.reduceAdd]
  omega

theorem bufStores_eq_map (a : Nat) (bytes : List Byte) : bufStores a bytes
    = (List.range bytes.length).map fun k => .write (.window (0x200 + a + k)) 1 (bytes.getD k 0).toNat := by
  induction bytes generalizing a with
  | nil => rfl
  | cons b bs ih =>
    rw [bufStores, ih, List.length_cons, List.range_succ_eq_map, List.map_cons, List.map_map]
    congr 1
    refine List.map_congr_left fun k _ => ?_
    simp [Nat.add_assoc, Nat.add_comm 1]

/-- Settles O23: each line by its own lemma; the offsets are those of the register map. -/
theorem pseudoInstructionsExpandExactly : Obligations.PseudoInstructionsExpandExactly := by
  refine ⟨expand_cmd, fun m hm => ?_, fun k b _ => ?_, bufStores_eq_map, fun _ => rfl, fun _ _ => rfl, rfl⟩
  · obtain ⟨why, hw⟩ := exists_illegal_of_down hm
    exact ⟨⟨why, hw⟩, Machine.runCommand_of_illegal hw⟩
  · simp only [HostLine.expand, keyWordOf_eq_leValue]
    rfl

end Sys2Proof

namespace Sys2Proof.Machine

/-! ### The frame of a command -/

/-- `t` differs from `s` only in what the command `i` may write (R126): `STATUS`, and its own results. -/
def WritesOnlyResults (i : Instr) (s t : State) : Prop :=
  t = { s with
    err := t.err, valid := t.valid, errcode := t.errcode, ciph := t.ciph, val := t.val, mic := t.mic,
    mem := t.mem } ∧
  (writesMic i = false → t.mic = s.mic) ∧
  (writesVal i = false → t.val = s.val) ∧
  (writesCiph i = false → t.ciph = s.ciph) ∧
  BufSameOutside s t (writtenRange i s).1 (writtenRange i s).2

theorem WritesOnlyResults.refl (i : Instr) (s : State) : WritesOnlyResults i s s :=
  ⟨rfl, fun _ => rfl, fun _ => rfl, fun _ => rfl, fun _ _ => rfl⟩

/-- Every command may write `STATUS`. -/
theorem WritesOnlyResults.setStatus {i : Instr} {s t : State} (h : WritesOnlyResults i s t) (err valid : Bool)
    (code : BitVec 8) : WritesOnlyResults i s (t.setStatus err valid code) := by
  obtain ⟨hframe, hmic, hval, hciph, hbuf⟩ := h
  exact ⟨by rw [hframe]; rfl, hmic, hval, hciph, hbuf⟩

/-- A `MemWrite` over the range that R126 gives the command leaves every byte outside it. -/
theorem bufSameOutside_memWrite {i : Instr} {s : State} {a : Nat} {bs : List Byte}
    (hr : writtenRange i s = (a, bs.length)) :
    BufSameOutside s (s.memWrite a bs) (writtenRange i s).1 (writtenRange i s).2 := by
  rw [hr]
  exact fun x hx => s.bufByte_memWrite_outside a x bs hx

theorem Effect.writesOnlyResults {i : Instr} {s u : State} {v : Bool} (h : Effect i s u v) :
    WritesOnlyResults i s u := by
  cases h with
  | check _ _ => exact .refl i s
  | set n mic hi hr _ =>
    exact ⟨rfl, fun hno => by simp [hi] at hno, fun _ => rfl, fun _ => rfl, bufSameOutside_memWrite hr⟩
  | cipher a bs c hi hr _ =>
    exact ⟨rfl, fun _ => rfl, fun _ => rfl, fun hno => by simp [hi] at hno, bufSameOutside_memWrite hr⟩
  | encode a bs _ hr _ => exact ⟨rfl, fun _ => rfl, fun _ => rfl, fun _ => rfl, bufSameOutside_memWrite hr⟩
  | decode x hi =>
    exact ⟨rfl, fun _ => rfl, fun hno => by simp [hi] at hno, fun _ => rfl, fun _ _ => rfl⟩

/-- Settles O26: the error path writes `STATUS` alone, and a success its own results and `STATUS`. -/
theorem commandsWriteOnlyTheirResults : Obligations.CommandsWriteOnlyTheirResults := by
  intro i s t h
  rcases exec_cases i s with ⟨e, he, _⟩ | ⟨u, v, hu, hE⟩
  · rw [he] at h
    cases h
    exact (WritesOnlyResults.refl i s).setStatus _ _ _
  · rw [hu] at h
    cases h
    exact hE.writesOnlyResults.setStatus _ _ _

end Sys2Proof.Machine
end

section
/-! The AES core family: the key schedule word by word, the cipher against its inverse round by round, doubling on the
integer of a block, and the split of a CMAC message. -/

namespace Sys2Proof.Machine

/-! ### The words of the key schedule (R165) -/

/-- Word `j` of the four words of round key `r`; a round key is the first four words of its own schedule. -/
theorem scheduleWord_round (k : Block) (r j : Nat) (h : j < 4) :
    scheduleWord k (4 * r + j) = scheduleWord (roundKey k r) j := by
  have hcol : (4 * r + j) % 4 = j % 4 := by omega
  have hround : (4 * r + j) / 4 = r := by omega
  have hfirst : j / 4 = 0 := by omega
  simp only [scheduleWord, hcol, hround, hfirst, roundKey]

/-- Settles O46: word `i` is a word of round key `floor(i / 4)`, and `nextRoundKey` gives each of the four its own step. -/
theorem keyScheduleFollowsItsRecurrence : Obligations.KeyScheduleFollowsItsRecurrence := by
  intro k
  refine ⟨rfl, rfl, rfl, rfl, fun i h4 _ => ?_⟩
  obtain ⟨r, hr⟩ : ∃ r, i / 4 = r + 1 := ⟨i / 4 - 1, by omega⟩
  have hold := scheduleWord_round k r
  have hnew := scheduleWord_round k (r + 1)
  obtain hi | hi | hi | hi : i = 4 * (r + 1) + 0 ∨ i = 4 * (r + 1) + 1 ∨ i = 4 * (r + 1) + 2 ∨ i = 4 * (r + 1) + 3 := by
    omega
  · rw [if_pos (by omega), hr, show i - 4 = 4 * r + 0 by omega, show i - 1 = 4 * r + 3 by omega, hi,
      hnew 0 (by decide), hold 0 (by decide), hold 3 (by decide)]
    rfl
  · rw [if_neg (by omega), show i - 4 = 4 * r + 1 by omega, show i - 1 = 4 * (r + 1) + 0 by omega, hi,
      hnew 1 (by decide), hold 1 (by decide), hnew 0 (by decide)]
    rfl
  · rw [if_neg (by omega), show i - 4 = 4 * r + 2 by omega, show i - 1 = 4 * (r + 1) + 1 by omega, hi,
      hnew 2 (by decide), hold 2 (by decide), hnew 1 (by decide)]
    rfl
  · rw [if_neg (by omega), show i - 4 = 4 * r + 3 by omega, show i - 1 = 4 * (r + 1) + 2 by omega, hi,
      hnew 3 (by decide), hold 3 (by decide), hnew 2 (by decide)]
    rfl

/-! ### The cipher and the inverse cipher, round against round (R166, R167) -/

/-- `n` rounds into decrypting a ciphertext, what is left is the first `r = 9 - n` rounds of its encryption and the
`SubBytes` and `ShiftRows` of the next. -/
theorem decRounds_aesEnc (k p : Block) (n r : Nat) (h : r + n = 9) :
    decRounds k (aesEnc k p) n = shiftRows (subBytes (encRounds k p r)) := by
  induction n generalizing r with
  | zero =>
    obtain rfl : r = 9 := h
    simp [decRounds, aesEnc]
  | succ n ih =>
    have hround : 9 - n = r + 1 := by omega
    rw [decRounds, ih (r + 1) (by omega), hround, encRounds]
    simp

/-- `r` rounds into encrypting a decrypted block, what is left is the first `n = 9 - r` rounds of its decryption and
the `InvShiftRows` and `InvSubBytes` of the next. -/
theorem encRounds_aesDec (k c : Block) (n r : Nat) (h : r + n = 9) :
    encRounds k (aesDec k c) r = invSubBytes (invShiftRows (decRounds k c n)) := by
  induction r generalizing n with
  | zero =>
    obtain rfl : n = 9 := by omega
    simp [encRounds, aesDec]
  | succ r ih =>
    have hround : 9 - n = r + 1 := by omega
    rw [encRounds, ih (n + 1) (by omega), decRounds, hround]
    simp

theorem aesDec_aesEnc (k p : Block) : aesDec k (aesEnc k p) = p := by
  rw [aesDec, decRounds_aesEnc k p 9 0 rfl]
  simp [encRounds]

theorem aesEnc_aesDec (k c : Block) : aesEnc k (aesDec k c) = c := by
  rw [aesEnc, encRounds_aesDec k c 0 9 rfl]
  simp [decRounds]

/-- Settles O47: both ways, round by round. -/
theorem cipherAndInverseUndoEachOther : Obligations.CipherAndInverseUndoEachOther :=
  fun k b => ⟨aesDec_aesEnc k b, aesEnc_aesDec k b⟩

/-! ### Doubling on the integer of a block (R169) -/

theorem leValue_append_singleton (bs : List Byte) (b : Byte) :
    leValue (bs ++ [b]) = leValue bs + b.toNat * 256 ^ bs.length := by
  induction bs with
  | nil => simp [leValue]
  | cons c cs ih =>
    rw [List.cons_append, leValue, ih, leValue, List.length_cons, Nat.pow_succ]
    ring

/-- The first byte is the most significant one. -/
theorem beValue_cons (b : Byte) (bs : List Byte) : beValue (b :: bs) = beValue bs + b.toNat * 256 ^ bs.length := by
  rw [beValue, List.reverse_cons, leValue_append_singleton, List.length_reverse, beValue]

theorem Block.beValue_toBytes_lt (x : Block) : beValue x.toBytes < 2 ^ 128 :=
  (beValue_lt x.toBytes).trans_eq (by rw [x.toBytes_length]; norm_num)

/-- The top bit of a block tells on which side of `2^127` its integer lies. -/
theorem Block.topBit_iff (x : Block) : x.c0.r0.getLsbD 7 = true ↔ ¬ beValue x.toBytes < 2 ^ 127 := by
  obtain ⟨rest, hx, hlen⟩ : ∃ rest, x.toBytes = x.c0.r0 :: rest ∧ rest.length = 15 := ⟨_, rfl, rfl⟩
  have hrest : beValue rest < 256 ^ rest.length := beValue_lt rest
  have hbit : x.c0.r0.getLsbD 7 = true ↔ 128 ≤ x.c0.r0.toNat := by
    rw [← decide_eq_true_iff (p := 128 ≤ x.c0.r0.toNat)]
    exact iff_of_eq (congrArg (· = true) (BitVec.msb_eq_decide x.c0.r0))
  rw [hlen] at hrest
  rw [hbit, hx, beValue_cons, hlen]
  omega

/-- The integer of `dbl x`: the shift of R169 and its reduction both stay below `2^128`. -/
theorem beValue_dbl (x : Block) :
    beValue (dbl x).toBytes = (2 * beValue x.toBytes) % 2 ^ 128 ^^^ (if x.c0.r0.getLsbD 7 then 0x87 else 0) := by
  have hshift : beValue x.toBytes <<< 1 = 2 * beValue x.toBytes := by rw [Nat.shiftLeft_eq, Nat.mul_comm]
  have hpoly : (if x.c0.r0.getLsbD 7 then 0x87 else 0) < 2 ^ 128 := by split <;> decide
  have hlt := Nat.xor_lt_two_pow (Nat.mod_lt (2 * beValue x.toBytes) (Nat.two_pow_pos 128)) hpoly
  rw [dbl, Block.toBytes_ofBytes _ (beBytes_length 16 _), hshift, beValue_beBytes 16 _ hlt]

/-- Settles O48: below `2^127` nothing is lost by the shift; from there on exactly `2^128` is, and `0x87` comes in. -/
theorem doublingReducesByTheCmacPolynomial : Obligations.DoublingReducesByTheCmacPolynomial := by
  intro x
  have hlt := x.beValue_toBytes_lt
  rw [beValue_dbl]
  by_cases hsmall : beValue x.toBytes < 2 ^ 127
  · have hmod : 2 * beValue x.toBytes % 2 ^ 128 = 2 * beValue x.toBytes := by omega
    rw [if_neg (mt x.topBit_iff.mp (not_not_intro hsmall)), if_pos hsmall, hmod, Nat.xor_zero]
  · have hmod : 2 * beValue x.toBytes % 2 ^ 128 = 2 * beValue x.toBytes - 2 ^ 128 := by omega
    rw [if_pos (x.topBit_iff.mpr hsmall), if_neg hsmall, hmod]

/-! ### The split of a CMAC message (R171) -/

section
variable {blocks : List (List Byte)} {last : List Byte}

theorem CmacSplit.length_eq (h : CmacSplit blocks last) :
    (blocks.flatten ++ last).length = 16 * blocks.length + last.length := by
  rw [List.length_append, length_flatten_blocks blocks h.1]

/-- An empty last block stands alone. -/
theorem CmacSplit.blocks_length_eq_zero (h : CmacSplit blocks last) (h0 : last.length = 0) : blocks.length = 0 := by
  obtain ⟨-, -, hempty⟩ := h
  rw [hempty (List.eq_nil_of_length_eq_zero h0), List.length_nil]

/-- The number `n` of R171 counts the full blocks and the last one. -/
theorem CmacSplit.cmacBlocks_eq (h : CmacSplit blocks last) :
    cmacBlocks (blocks.flatten ++ last) = blocks.length + 1 := by
  have h0 := h.blocks_length_eq_zero
  have hlen := h.length_eq
  obtain ⟨-, hlast, -⟩ := h
  rw [cmacBlocks, blockCount, hlen]
  split <;> omega

theorem CmacSplit.cmacTail_eq (h : CmacSplit blocks last) : cmacTail (blocks.flatten ++ last) = last := by
  rw [cmacTail, h.cmacBlocks_eq, Nat.add_sub_cancel, List.drop_left' (length_flatten_blocks blocks h.1)]

theorem CmacSplit.cmacComplete_iff (h : CmacSplit blocks last) :
    cmacComplete (blocks.flatten ++ last) = true ↔ last.length = 16 := by
  have h0 := h.blocks_length_eq_zero
  have hlen := h.length_eq
  obtain ⟨-, hlast, -⟩ := h
  rw [cmacComplete, hlen, Bool.and_eq_true, bne_iff_ne, beq_iff_eq]
  omega

theorem CmacSplit.cmacLast_eq (h : CmacSplit blocks last) (k : Block) :
    cmacLast k (blocks.flatten ++ last) =
      if last.length = 16 then (Block.ofBytes last).xor (cmacK1 k)
      else (Block.ofBytes (last ++ [0x80] ++ List.replicate (15 - last.length) 0)).xor (cmacK2 k) := by
  simp only [cmacLast, h.cmacTail_eq, h.cmacComplete_iff]

/-- A full block in front of a split of a message that is not empty. -/
theorem CmacSplit.cons {b : List Byte} (hb : b.length = 16) (h : CmacSplit blocks last)
    (hne : blocks.flatten ++ last ≠ []) : CmacSplit (b :: blocks) last := by
  obtain ⟨hblocks, hlast, hempty⟩ := h
  refine ⟨List.forall_mem_cons.mpr ⟨hb, hblocks⟩, hlast, fun hnil => absurd ?_ hne⟩
  rw [hempty hnil, hnil]
  rfl

end

/-- Every message has a split: up to 16 bytes are a last block, more begin with a full one. -/
theorem exists_cmacSplit (m : List Byte) : ∃ blocks last, CmacSplit blocks last ∧ m = blocks.flatten ++ last := by
  by_cases hm : m.length ≤ 16
  · exact ⟨[], m, ⟨by simp, hm, fun _ => rfl⟩, rfl⟩
  · obtain ⟨blocks, last, hsplit, heq⟩ := exists_cmacSplit (m.drop 16)
    have hne : blocks.flatten ++ last ≠ [] := by
      rw [← heq, Ne, List.drop_eq_nil_iff]
      exact hm
    refine ⟨m.take 16 :: blocks, last, hsplit.cons (List.length_take_of_le (by omega)) hne, ?_⟩
    rw [List.flatten_cons, List.append_assoc, ← heq, List.take_append_drop]
termination_by m.length
decreasing_by rw [List.length_drop]; omega

/-- Settles O49: the chain runs over the blocks of the split, and the tail of the message is its last block. -/
theorem cmacPadsAndChains : Obligations.CmacPadsAndChains := by
  refine ⟨fun k => ⟨rfl, rfl, fun blocks last h => ?_⟩, exists_cmacSplit⟩
  rw [aesCmac, h.cmacBlocks_eq, Nat.add_sub_cancel, cmacChain_flatten k blocks last h.1, h.cmacLast_eq]

end Sys2Proof.Machine
end

section
/-! The field codec family: each codec command is `encodeField` or `decodeField` of a number of bytes and a unit. The
rules of R203 to R212, the round trips of R213 and the independence of R202 are proved of the two operations. -/

namespace Sys2Proof.Machine

/-! ### The two operations -/

/-- The command `i` writes the number of whole units in `VAL` as an `n`-byte field (R203, R205, R207, R209, R211). -/
def IsEncoder (i : Instr) (n unit : Nat) : Prop :=
  ∀ s : State, exec i s = finish s (encodeField n (s.val.toNat / unit) s)

/-- The command `i` reads an `n`-byte field as a number of units (R204, R206, R208, R210, R212). -/
def IsDecoder (i : Instr) (n unit : Nat) : Prop := ∀ s : State, exec i s = finish s (decodeField n unit s)

theorem isEncoder_encDevaddr : IsEncoder .encDevaddr 4 1 := fun s => by rw [Nat.div_one]; rfl
theorem isEncoder_encEui : IsEncoder .encEui 8 1 := fun s => by rw [Nat.div_one]; rfl
theorem isEncoder_encNonce16 : IsEncoder .encNonce16 2 1 := fun s => by rw [Nat.div_one]; rfl
theorem isEncoder_encNonce24 : IsEncoder .encNonce24 3 1 := fun s => by rw [Nat.div_one]; rfl
theorem isEncoder_encFreq24 : IsEncoder .encFreq24 3 100 := fun _ => rfl

theorem isDecoder_decDevaddr : IsDecoder .decDevaddr 4 1 := fun _ => rfl
theorem isDecoder_decEui : IsDecoder .decEui 8 1 := fun _ => rfl
theorem isDecoder_decNonce16 : IsDecoder .decNonce16 2 1 := fun _ => rfl
theorem isDecoder_decNonce24 : IsDecoder .decNonce24 3 1 := fun _ => rfl
theorem isDecoder_decFreq24 : IsDecoder .decFreq24 3 100 := fun _ => rfl

/-- Every codec command is one of the two operations. -/
theorem isEncoder_or_isDecoder {i : Instr} (h : isCodec i = true) :
    (∃ n unit, IsEncoder i n unit) ∨ (∃ n unit, IsDecoder i n unit) := by
  cases i with
  | encDevaddr => exact .inl ⟨_, _, isEncoder_encDevaddr⟩
  | encEui => exact .inl ⟨_, _, isEncoder_encEui⟩
  | encNonce16 => exact .inl ⟨_, _, isEncoder_encNonce16⟩
  | encNonce24 => exact .inl ⟨_, _, isEncoder_encNonce24⟩
  | encFreq24 => exact .inl ⟨_, _, isEncoder_encFreq24⟩
  | decDevaddr => exact .inr ⟨_, _, isDecoder_decDevaddr⟩
  | decEui => exact .inr ⟨_, _, isDecoder_decEui⟩
  | decNonce16 => exact .inr ⟨_, _, isDecoder_decNonce16⟩
  | decNonce24 => exact .inr ⟨_, _, isDecoder_decNonce24⟩
  | decFreq24 => exact .inr ⟨_, _, isDecoder_decFreq24⟩
  | _ => cases h

section
variable {i : Instr} {n unit : Nat} {s : State}

theorem IsEncoder.exec_bounds (hi : IsEncoder i n unit) (h : 512 < s.foff.toNat + n) :
    exec i s = .next (s.raise .bounds) := by
  rw [hi, encodeField_bounds h, finish_raised]

theorem IsEncoder.exec_argument (hi : IsEncoder i n unit) (h : s.foff.toNat + n ≤ 512)
    (hu : 256 ^ n ≤ s.val.toNat / unit) : exec i s = .next (s.raise .invalidArgument) := by
  rw [hi, encodeField_argument h (by rwa [Nat.pow_mul]), finish_raised]

theorem IsEncoder.exec_done (hi : IsEncoder i n unit) (h : s.foff.toNat + n ≤ 512)
    (hu : s.val.toNat / unit < 256 ^ n) :
    exec i s = .next ((s.memWrite s.foff.toNat (leBytes n (s.val.toNat / unit))).succeed false) := by
  rw [hi, encodeField_done h (by rwa [Nat.pow_mul]), finish_done]

theorem IsDecoder.exec_bounds (hi : IsDecoder i n unit) (h : 512 < s.foff.toNat + n) :
    exec i s = .next (s.raise .bounds) := by
  obtain ⟨-, hd⟩ := (decodeField_cases n unit s).resolve_right fun ⟨hb, _⟩ => by omega
  rw [hi, hd, finish_raised]

theorem IsDecoder.exec_done (hi : IsDecoder i n unit) (h : s.foff.toNat + n ≤ 512) :
    exec i s = .next
      ((s.setVal (BitVec.ofNat 64 (unit * leValue (s.memRead s.foff.toNat n)))).succeed false) := by
  obtain ⟨-, hd⟩ := (decodeField_cases n unit s).resolve_left fun ⟨hb, _⟩ => by omega
  rw [hi, hd, finish_done]

/-! ### The encoders -/

/-- `encodeField` on every path: the two checks in their order, then the bytes of the field (R201). -/
theorem IsEncoder.rule (hi : IsEncoder i n unit) : EncoderRule i n (fun s => s.val.toNat / unit) := by
  refine fun s => ⟨hi.exec_bounds, hi.exec_argument, fun h hu => ⟨_, hi.exec_done h hu, rfl, fun k hk => ?_, ?_⟩⟩
  · rw [State.bufByte_succeed, State.bufByte_memWrite_inside _ _ _ _ (by simpa using hk), leBytes_getD _ _ _ hk]
  · exact fun x hx => s.bufByte_memWrite_outside _ x _ (by simpa using hx)

theorem IsEncoder.rule_val (hi : IsEncoder i n 1) : EncoderRule i n (fun s => s.val.toNat) := by
  simpa only [Nat.div_one] using hi.rule

end

/-- Settles O29, by the rule of `encodeField`. -/
theorem encodersWriteTheFieldInWireOrder : Obligations.EncodersWriteTheFieldInWireOrder :=
  ⟨rfl, rfl, rfl, isEncoder_encDevaddr.rule_val, isEncoder_encNonce16.rule_val, isEncoder_encNonce24.rule_val⟩

/-- Settles O30: `VAL` always fits eight bytes, so the value check of the rule cannot fail. -/
theorem encodeEuiWritesAllOfVal : Obligations.EncodeEuiWritesAllOfVal := by
  refine ⟨rfl, fun s => ?_⟩
  obtain ⟨hbounds, -, hdone⟩ := isEncoder_encEui.rule_val s
  refine ⟨fun h => hbounds (by omega), fun h => ?_⟩
  obtain ⟨t, hexec, hframe, hbytes, hout⟩ := hdone (by omega) s.val.isLt
  exact ⟨t, hexec, hframe, fun k hk => by rw [hbytes k hk, byteOf_eq_ofNat], hout⟩

/-- Settles O31: below the bound the command succeeds, and a success is no failure. -/
theorem encodeFrequencyWritesHundredHertzUnits : Obligations.EncodeFrequencyWritesHundredHertzUnits := by
  refine ⟨rfl, isEncoder_encFreq24.rule, fun s h => ⟨fun hfails => ?_, fun hval =>
    isEncoder_encFreq24.exec_argument (by omega) (by omega)⟩⟩
  by_contra hval
  rw [FailsWith, isEncoder_encFreq24.exec_done (by omega) (by omega)] at hfails
  cases hfails

/-! ### The decoders -/

section
variable {i : Instr} {n unit : Nat}

/-- An `n`-byte field is less than `256^n`. -/
theorem State.leValue_memRead_lt (s : State) (a n : Nat) : leValue (s.memRead a n) < 256 ^ n := by
  simpa using leValue_lt (s.memRead a n)

/-- The value of a field that fits `VAL` is kept whole in it. -/
theorem State.toNat_ofNat_leValue_memRead (s : State) (a : Nat) (hfit : unit * 256 ^ n ≤ 2 ^ 64) (hunit : 0 < unit) :
    (BitVec.ofNat 64 (unit * leValue (s.memRead a n))).toNat = unit * leValue (s.memRead a n) := by
  have hlt := Nat.mul_lt_mul_of_pos_left (s.leValue_memRead_lt a n) hunit
  rw [BitVec.toNat_ofNat, Nat.mod_eq_of_lt (hlt.trans_le hfit)]

/-- `decodeField` in units of 1 on every path: the field in the low bytes of `VAL` and zero above (R201, R202). -/
theorem IsDecoder.rule (hi : IsDecoder i n 1) : DecoderRule i n := by
  refine fun s => ⟨hi.exec_bounds, fun h => ⟨_, hi.exec_done h, rfl, fun k hk => ?_⟩⟩
  rw [Nat.one_mul, State.succeed_val, State.setVal_val, byteOf_ofNat_leValue 64 _ k (by omega)]
  split
  · next hkn => exact s.memRead_getD _ n k hkn
  · next hkn => exact List.getD_eq_default _ _ (by simpa using hkn)

end

/-- Settles O32, by the rule of `decodeField`. -/
theorem decodersReadTheFieldInWireOrder : Obligations.DecodersReadTheFieldInWireOrder :=
  ⟨rfl, rfl, rfl, rfl, isDecoder_decDevaddr.rule, isDecoder_decEui.rule, isDecoder_decNonce16.rule,
    isDecoder_decNonce24.rule⟩

/-- A three-byte field, least significant byte first (R11). -/
theorem State.leValue_memRead_three (s : State) (a : Nat) : leValue (s.memRead a 3)
    = (s.bufByte a).toNat + 256 * (s.bufByte (a + 1)).toNat + 65536 * (s.bufByte (a + 2)).toNat := by
  simp only [State.memRead, List.range_succ, List.range_zero, List.nil_append, List.cons_append, List.map_cons,
    List.map_nil, leValue, Nat.add_zero]
  omega

/-- Settles O33: the 24-bit field is less than `2^24`, so 100 times it fits 32 bits. -/
theorem decodeFrequencyGivesHertz : Obligations.DecodeFrequencyGivesHertz := by
  refine ⟨rfl, fun s => ⟨fun h => isDecoder_decFreq24.exec_bounds (by omega), fun h =>
    ⟨_, isDecoder_decFreq24.exec_done (by omega), rfl, ?_⟩⟩⟩
  have hlt := s.leValue_memRead_lt s.foff.toNat 3
  rw [State.succeed_val, State.setVal_val, State.toNat_ofNat_leValue_memRead _ _ (by norm_num) (by norm_num),
    ← State.leValue_memRead_three]
  exact ⟨rfl, by omega⟩

/-! ### Round trips -/

/-- The end of a command changes no byte of the buffer. -/
@[simp] theorem State.memRead_succeed (s : State) (v : Bool) (a n : Nat) :
    (s.succeed v).memRead a n = s.memRead a n := rfl

/-- Writing back what a range holds changes no byte. -/
theorem State.bufByte_memWrite_memRead (s : State) (a n x : Nat) :
    (s.memWrite a (s.memRead a n)).bufByte x = s.bufByte x := by
  by_cases hx : a ≤ x ∧ x < a + n
  · obtain ⟨k, rfl⟩ := Nat.exists_eq_add_of_le hx.1
    have hk : k < n := by omega
    rw [State.bufByte_memWrite_inside _ _ _ _ (by simpa using hk), State.memRead_getD _ _ _ _ hk]
  · exact s.bufByte_memWrite_outside a x _ (by rw [State.memRead_length]; omega)

section
variable {enc dec : Instr} {n unit : Nat}

/-- The encoder, then the decoder: the decoder reads the field just written. -/
theorem encode_then_decode (henc : IsEncoder enc n unit) (hdec : IsDecoder dec n unit) {s : State}
    (h : s.foff.toNat + n ≤ 512) (hval : s.val.toNat < unit * 256 ^ n) :
    ∃ t u, exec enc s = .next t ∧ exec dec t = .next u ∧ u.err = false ∧
      u.val.toNat = unit * (s.val.toNat / unit) := by
  have hu : s.val.toNat / unit < 256 ^ n := Nat.div_lt_of_lt_mul hval
  have hread : ((s.memWrite s.foff.toNat (leBytes n (s.val.toNat / unit))).succeed false).memRead s.foff.toNat n
      = leBytes n (s.val.toNat / unit) := by
    simpa using s.memRead_memWrite_same s.foff.toNat (leBytes n (s.val.toNat / unit))
  have hfits : unit * (s.val.toNat / unit) < 2 ^ 64 := (Nat.mul_div_le _ _).trans_lt s.val.isLt
  refine ⟨_, _, henc.exec_done h hu, hdec.exec_done h, rfl, ?_⟩
  rw [State.succeed_val, State.setVal_val, State.succeed_foff, State.memWrite_foff, hread, leValue_leBytes n _ hu,
    BitVec.toNat_ofNat, Nat.mod_eq_of_lt hfits]

/-- The decoder, then the encoder: the encoder writes back the bytes the decoder read. -/
theorem decode_then_encode (henc : IsEncoder enc n unit) (hdec : IsDecoder dec n unit) (hunit : 0 < unit)
    (hfit : unit * 256 ^ n ≤ 2 ^ 64) {s : State} (h : s.foff.toNat + n ≤ 512) :
    ∃ t u, exec dec s = .next t ∧ exec enc t = .next u ∧ u.err = false ∧ BufSame s u := by
  have hunits : (BitVec.ofNat 64 (unit * leValue (s.memRead s.foff.toNat n))).toNat / unit
      = leValue (s.memRead s.foff.toNat n) := by
    rw [s.toNat_ofNat_leValue_memRead _ hfit hunit, Nat.mul_div_cancel_left _ hunit]
  have hbytes : leBytes n (leValue (s.memRead s.foff.toNat n)) = s.memRead s.foff.toNat n := by
    simpa using leBytes_leValue (s.memRead s.foff.toNat n)
  refine ⟨_, _, hdec.exec_done h, henc.exec_done h ?_, rfl, fun x => ?_⟩
  · rw [State.succeed_val, State.setVal_val, hunits]
    exact s.leValue_memRead_lt _ n
  · rw [State.bufByte_succeed, State.succeed_val, State.setVal_val, hunits, hbytes]
    exact s.bufByte_memWrite_memRead _ n x

/-- Both round trips of a field whose largest value, in its unit, fits `VAL` (R213). -/
theorem fieldRoundTrip (henc : IsEncoder enc n unit) (hdec : IsDecoder dec n unit) (hunit : 0 < unit)
    (hfit : unit * 256 ^ n ≤ 2 ^ 64) :
    FieldRoundTrip enc dec n (unit * 256 ^ n) (fun s => unit * (s.val.toNat / unit)) :=
  fun _ h => ⟨encode_then_decode henc hdec h, decode_then_encode henc hdec hunit hfit h⟩

theorem fieldRoundTrip_val (henc : IsEncoder enc n 1) (hdec : IsDecoder dec n 1) (hn : 256 ^ n ≤ 2 ^ 64) :
    FieldRoundTrip enc dec n (256 ^ n) (fun s => s.val.toNat) := by
  simpa only [Nat.one_mul, Nat.div_one] using fieldRoundTrip henc hdec Nat.one_pos (by rwa [Nat.one_mul])

end

/-- Settles O34: one law for the five fields. -/
theorem fieldsRoundTrip : Obligations.FieldsRoundTrip :=
  ⟨fieldRoundTrip_val isEncoder_encDevaddr isDecoder_decDevaddr (by norm_num),
    fieldRoundTrip_val isEncoder_encEui isDecoder_decEui (by norm_num),
    fieldRoundTrip_val isEncoder_encNonce16 isDecoder_decNonce16 (by norm_num),
    fieldRoundTrip_val isEncoder_encNonce24 isDecoder_decNonce24 (by norm_num),
    fieldRoundTrip isEncoder_encFreq24 isDecoder_decFreq24 (by norm_num) (by norm_num)⟩

/-! ### The flag, `MIC` and the keys -/

/-- Settles O35: both operations take the same path whatever the flag, `MIC` and the keys hold, since their checks look
at `FOFF` and `VAL` only. -/
theorem codecIgnoresFlagMicAndKeys : Obligations.CodecIgnoresFlagMicAndKeys := by
  intro i s t c m k1 k2 k3 hcodec h
  rcases isEncoder_or_isDecoder hcodec with ⟨n, unit, hi⟩ | ⟨n, unit, hi⟩ <;>
    rcases Nat.lt_or_ge 512 (s.foff.toNat + n) with hb | hb
  · rw [hi.exec_bounds hb] at h; cases h
    exact hi.exec_bounds hb
  · rcases Nat.lt_or_ge (s.val.toNat / unit) (256 ^ n) with hu | hu
    · rw [hi.exec_done hb hu] at h; cases h
      exact hi.exec_done hb hu
    · rw [hi.exec_argument hb hu] at h; cases h
      exact hi.exec_argument hb hu
  · rw [hi.exec_bounds hb] at h; cases h
    exact hi.exec_bounds hb
  · rw [hi.exec_done hb] at h; cases h
    exact hi.exec_done hb

end Sys2Proof.Machine
end

section
/-! The MIC family: each path of each MIC command as one equation of `exec`, what placing a MIC and comparing one say of
`BUF` and `MIC`, and that the message a `*_CHK` reads after a `*_SET` is the message the MIC was computed of. -/

namespace Sys2Proof.Machine

/-! ### The B0 block (R240) -/

/-- The four bytes of a word, least significant first (R11, R82). -/
theorem leBytes_four_toNat (w : Word) : leBytes 4 w.toNat = [byteOf w 0, byteOf w 1, byteOf w 2, byteOf w 3] := by
  simp [leBytes, byteOf_eq_ofNat, Nat.div_div_eq_div_mul]

/-- Settles O36: the direction is a byte of its own, and the two words are their bytes. -/
theorem b0HasTheSpecLayout : Obligations.B0HasTheSpecLayout := by
  intro a f n
  simp only [b0, leBytes_four_toNat]
  exact ⟨rfl, rfl⟩

/-! ### The commands, path by path -/

theorem exec_micDataSet (d : Dir) (s : State) :
    exec (.micDataSet d) s = .next ((s.placeMic s.len.toNat (s.dataMic d)).succeed false) := rfl

theorem exec_micDataChk (d : Dir) (s : State) :
    exec (.micDataChk d) s = .next (s.succeed (s.micMatches s.len.toNat (s.dataMic d))) := rfl

section
variable {s : State}

theorem exec_micJrSet (h : s.len.toNat = 19) :
    exec .micJrSet s = .next ((s.placeMic 19 (s.joinMic 19)).succeed false) := by
  rw [exec, execMicJrSet, if_pos (s.joinRequestSize_iff.2 h), finish_done]

theorem exec_micJrSet_size (h : s.len.toNat ≠ 19) : exec .micJrSet s = .next (s.raise .sizeMismatch) := by
  rw [exec, execMicJrSet, if_neg (mt s.joinRequestSize_iff.1 h), finish_raised]

theorem exec_micJrChk (h : s.len.toNat = 19) :
    exec .micJrChk s = .next (s.succeed (s.micMatches 19 (s.joinMic 19))) := by
  rw [exec, execMicJrChk, if_pos (s.joinRequestSize_iff.2 h), finish_done]

theorem exec_micJrChk_size (h : s.len.toNat ≠ 19) : exec .micJrChk s = .next (s.raise .sizeMismatch) := by
  rw [exec, execMicJrChk, if_neg (mt s.joinRequestSize_iff.1 h), finish_raised]

theorem State.not_joinAcceptSize (h : s.len.toNat ≠ 13 ∧ s.len.toNat ≠ 29) : ¬ s.joinAcceptSize = true :=
  mt s.joinAcceptSize_iff.1 (not_or.2 h)

theorem exec_micJaSet_size (h : s.len.toNat ≠ 13 ∧ s.len.toNat ≠ 29) :
    exec .micJaSet s = .next (s.raise .sizeMismatch) := by
  rw [exec, execMicJaSet, if_neg (State.not_joinAcceptSize h), finish_raised]

theorem exec_micJaSet_ciphertext (h : s.len.toNat = 13 ∨ s.len.toNat = 29) (hc : s.ciph = true) :
    exec .micJaSet s = .next (s.raise .state) := by
  rw [exec, execMicJaSet, if_pos (s.joinAcceptSize_iff.2 h), if_pos hc, finish_raised]

theorem exec_micJaSet_plaintext (h : s.len.toNat = 13 ∨ s.len.toNat = 29) (hc : s.ciph = false) :
    exec .micJaSet s = .next ((s.placeMic s.len.toNat (s.joinMic s.len.toNat)).succeed false) := by
  rw [exec, execMicJaSet, if_pos (s.joinAcceptSize_iff.2 h), if_neg (by simp [hc]), finish_done]

theorem exec_micJaChk_size (h : s.len.toNat ≠ 13 ∧ s.len.toNat ≠ 29) :
    exec .micJaChk s = .next (s.raise .sizeMismatch) := by
  rw [exec, execMicJaChk, if_neg (State.not_joinAcceptSize h), finish_raised]

theorem exec_micJaChk_ciphertext (h : s.len.toNat = 13 ∨ s.len.toNat = 29) (hc : s.ciph = true) :
    exec .micJaChk s = .next (s.succeed false) := by
  rw [exec, execMicJaChk, if_pos (s.joinAcceptSize_iff.2 h), if_pos hc, finish_done]

theorem exec_micJaChk_plaintext (h : s.len.toNat = 13 ∨ s.len.toNat = 29) (hc : s.ciph = false) :
    exec .micJaChk s = .next (s.succeed (s.micMatches s.len.toNat (s.joinMic s.len.toNat))) := by
  rw [exec, execMicJaChk, if_pos (s.joinAcceptSize_iff.2 h), if_neg (by simp [hc]), finish_done]

end

/-! ### Placing a MIC and comparing one -/

section
variable {i : Instr} {s : State} {k : BitVec 128} {m : List Byte} {n : Nat}

/-- A command whose success places the MIC of `m` does what every `*_SET` does (R244, R247, R250). -/
theorem setsMic_of_exec (h : exec i s = .next ((s.placeMic n (micOf (keyBlock k) m)).succeed false)) :
    SetsMic i s k m n := by
  refine ⟨_, h, rfl, fun j hj => ⟨?_, ?_⟩, fun x hx => ?_⟩
  · exact (s.bufByte_memWrite_inside n j _ (by simpa using hj)).trans (micOf_getD k m j hj)
  · rw [State.succeed_mic, State.placeMic_mic, byteOf_ofNat_leValue 32 _ j (by omega), micOf_getD k m j hj]
  · exact s.bufByte_memWrite_outside n x _ (by simpa using hx)

/-- A command whose success compares with the MIC of `m` does what every `*_CHK` does (R245, R248, R251). -/
theorem checksTo_of_exec (h : exec i s = .next (s.succeed (s.micMatches n (micOf (keyBlock k) m)))) :
    ChecksTo i s (micEqual s k m n) := by
  rw [State.micMatches_eq] at h
  exact h

end

/-- Settles O37: the command has no check. -/
theorem setDataMic : Obligations.SetDataMic :=
  ⟨rfl, rfl, fun d s => setsMic_of_exec (exec_micDataSet d s)⟩

/-- Settles O38: the command has no check. -/
theorem checkDataMic : Obligations.CheckDataMic :=
  ⟨rfl, rfl, fun d s => checksTo_of_exec (exec_micDataChk d s)⟩

/-- Settles O39, on the two paths of the size check. -/
theorem setJoinRequestMic : Obligations.SetJoinRequestMic :=
  ⟨rfl, fun _ => ⟨fun h => setsMic_of_exec (exec_micJrSet h), exec_micJrSet_size⟩⟩

/-- Settles O40, on the two paths of the size check. -/
theorem checkJoinRequestMic : Obligations.CheckJoinRequestMic :=
  ⟨rfl, fun _ => ⟨fun h => checksTo_of_exec (exec_micJrChk h), exec_micJrChk_size⟩⟩

/-- Settles O41, on the three paths of the size check and the flag check. -/
theorem setJoinAcceptMic : Obligations.SetJoinAcceptMic :=
  ⟨rfl, fun _ => ⟨exec_micJaSet_size, exec_micJaSet_ciphertext,
    fun h hc => setsMic_of_exec (exec_micJaSet_plaintext h hc)⟩⟩

/-- Settles O42, on the three paths of the size check and the flag. -/
theorem checkJoinAcceptMic : Obligations.CheckJoinAcceptMic :=
  ⟨rfl, fun _ => ⟨exec_micJaChk_size, exec_micJaChk_ciphertext,
    fun h hc => checksTo_of_exec (exec_micJaChk_plaintext h hc)⟩⟩

/-! ### A check after a set -/

/-- A MIC placed after `n` message bytes leaves the message. -/
@[simp] theorem State.memRead_placeMic (s : State) (n : Nat) (mic : List Byte) :
    (s.placeMic n mic).memRead 0 n = s.memRead 0 n :=
  s.memRead_memWrite_apart n 0 n mic (.inl (by omega))

theorem State.joinMic_placeMic (s : State) (n : Nat) (mic : List Byte) (v : Bool) :
    ((s.placeMic n mic).succeed v).joinMic n = s.joinMic n := by
  simp [State.joinMic]

theorem State.dataMic_placeMic (s : State) (mic : List Byte) (v : Bool) (d : Dir) :
    ((s.placeMic s.len.toNat mic).succeed v).dataMic d = s.dataMic d := by
  simp [State.dataMic]

/-- A check ends with `VALID = 1` when the MIC it computes is the one a set has just placed. -/
theorem valid_of_set_then_check {set chk : Instr} {s t : State} {n : Nat} {mic mic' : List Byte}
    (hmic : mic.length = 4) (hset : exec set s = .next ((s.placeMic n mic).succeed false))
    (ht : t = (s.placeMic n mic).succeed false) (hchk : exec chk t = .next (t.succeed (t.micMatches n mic')))
    (hsame : mic' = mic) : ∃ t u, exec set s = .next t ∧ exec chk t = .next u ∧ u.valid = true := by
  subst ht hsame
  exact ⟨_, _, hset, hchk, State.micMatches_placeMic s _ n mic' hmic rfl rfl⟩

/-- Settles O44: for each kind of frame the check takes the path the set took, and computes the MIC of the same
message. -/
theorem setThenCheckIsValid : Obligations.SetThenCheckIsValid :=
  ⟨fun d s => valid_of_set_then_check (micOf_length _ _) (exec_micDataSet d s) rfl (exec_micDataChk d _)
      (s.dataMic_placeMic _ false d),
    fun s h => valid_of_set_then_check (micOf_length _ _) (exec_micJrSet h) rfl (exec_micJrChk h)
      (s.joinMic_placeMic 19 _ false),
    fun s h hc => valid_of_set_then_check (micOf_length _ _) (exec_micJaSet_plaintext h hc) rfl
      (exec_micJaChk_plaintext h hc) (s.joinMic_placeMic _ _ false)⟩

/-! ### The flag -/

/-- The data MIC is a function of `NWKSKEY`, `DEVADDR`, `FCNT32`, `LEN` and `BUF` (R241). -/
theorem State.dataMic_setCiph (s : State) (c : Bool) (d : Dir) : (s.setCiph c).dataMic d = s.dataMic d := rfl

/-- Settles O43: neither the MIC, nor where it goes, nor what it is compared with depends on the flag. -/
theorem dataMicIgnoresTheFlag : Obligations.DataMicIgnoresTheFlag := by
  intro d s t c
  change (_ → exec _ (s.setCiph c) = .next (t.setCiph c)) ∧ (_ → exec _ (s.setCiph c) = .next (t.setCiph c))
  refine ⟨fun h => ?_, fun h => ?_⟩
  · rw [exec_micDataSet] at h
    cases h
    rw [exec_micDataSet, State.dataMic_setCiph]
    rfl
  · rw [exec_micDataChk] at h
    cases h
    rw [exec_micDataChk, State.dataMic_setCiph]
    rfl

end Sys2Proof.Machine
end

section
/-! The FRMPayload cipher family: `CTR_ENC` and `CTR_DEC` are one operation, which leaves the flag other than it requires
it to be. The paths, the bytes and the inverse law are proved of that operation. -/

namespace Sys2Proof.Machine

/-! ### The counter block (R280) -/

/-- The counter block with its address and counter as bytes. -/
theorem counterBlock_eq (d : Dir) (a f : Word) (i : Nat) :
    counterBlock d a f i = [0x01, 0, 0, 0, 0, dirByte d, byteOf a 0, byteOf a 1, byteOf a 2, byteOf a 3,
      byteOf f 0, byteOf f 1, byteOf f 2, byteOf f 3, 0, indexByte i] := by
  rw [counterBlock, leBytes_four_toNat, leBytes_four_toNat]
  rfl

/-- The index byte is the index, for every index R280 defines. -/
theorem toNat_indexByte {i : Nat} (h : i < 256) : (indexByte i).toNat = i := by
  rw [indexByte_of_lt h, BitVec.toNat_ofNat, Nat.mod_eq_of_lt h]

/-- Settles O50: an index up to 255 is its own byte. -/
theorem counterBlockHasTheSpecLayout : Obligations.CounterBlockHasTheSpecLayout :=
  fun a f i _ hi => ⟨indexByte i, toNat_indexByte (by omega), counterBlock_eq .up a f i, counterBlock_eq .down a f i⟩

/-! ### The two commands, path by path -/

/-- The command `i` ciphers the payload in direction `d` when `CTRL.CIPH` is `c`, and turns the flag over (R283,
R284). -/
def IsPayloadCipher (i : Instr) (d : Dir) (c : Bool) : Prop :=
  ∀ s : State, exec i s = finish s
    (if pastBuffer s.payoff.toNat s.paylen.toNat then .raised .bounds
    else if s.ciph = c then .done (s.cipherPayload d (!c)) false
    else .raised .state)

theorem isPayloadCipher_ctrEnc (d : Dir) : IsPayloadCipher (.ctrEnc d) d false := by
  intro s
  rw [exec, execCtrEnc]
  cases s.ciph <;> rfl

theorem isPayloadCipher_ctrDec (d : Dir) : IsPayloadCipher (.ctrDec d) d true := fun _ => rfl

section
variable {i : Instr} {d : Dir} {c : Bool} {s : State}

theorem IsPayloadCipher.exec_bounds (hi : IsPayloadCipher i d c) (h : 512 < s.payoff.toNat + s.paylen.toNat) :
    exec i s = .next (s.raise .bounds) := by
  rw [hi, if_pos ((pastBuffer_iff _ _).2 h), finish_raised]

theorem IsPayloadCipher.exec_state (hi : IsPayloadCipher i d c) (h : s.payoff.toNat + s.paylen.toNat ≤ 512)
    (hc : s.ciph ≠ c) : exec i s = .next (s.raise .state) := by
  rw [hi, if_neg (by rw [pastBuffer_iff]; omega), if_neg hc, finish_raised]

theorem IsPayloadCipher.exec_done (hi : IsPayloadCipher i d c) (h : s.payoff.toNat + s.paylen.toNat ≤ 512)
    (hc : s.ciph = c) : exec i s = .next ((s.cipherPayload d (!c)).succeed false) := by
  rw [hi, if_neg (by rw [pastBuffer_iff]; omega), if_pos hc, finish_done]

/-! ### The bytes of the payload (R281, R282) -/

/-- `FPORT = 0` selects `NWKSKEY` (R282). -/
theorem State.payloadKey_eq (s : State) : s.payloadKey = if s.fport = 0 then s.nwkskey else s.appskey := by
  have hport : s.fport = 0 ↔ ¬ 1 ≤ s.fport.toNat := by bv_omega
  simp only [State.payloadKey, hport, ite_not]

@[simp] theorem State.cipherPayload_ciph (s : State) (d : Dir) (c : Bool) : (s.cipherPayload d c).ciph = c := rfl

theorem State.bufByte_cipherPayload_inside (s : State) (d : Dir) (c : Bool) (j : Nat) (h : j < s.paylen.toNat) :
    (s.cipherPayload d c).bufByte (s.payoff.toNat + j) = s.bufByte (s.payoff.toNat + j) ^^^
      (keystreamBlock (keyBlock s.payloadKey) d s.devaddr s.fcnt32 (j / 16 + 1)).toBytes.getD (j % 16) 0 := by
  rw [State.cipherPayload, State.bufByte_setCiph, State.bufByte_memWrite_inside _ _ _ _ (by simpa using h),
    ctrx_getD _ _ _ _ _ _ (by simpa using h), State.memRead_getD _ _ _ _ h]

theorem State.bufSameOutside_cipherPayload (s : State) (d : Dir) (c : Bool) :
    BufSameOutside s (s.cipherPayload d c) s.payoff.toNat s.paylen.toNat :=
  fun x hx => s.bufByte_memWrite_outside _ x _ (by simpa using hx)

theorem IsPayloadCipher.ciphersPayload (hi : IsPayloadCipher i d c) (h : s.payoff.toNat + s.paylen.toNat ≤ 512)
    (hc : s.ciph = c) : CiphersPayload i d s (!c) := by
  refine ⟨_, hi.exec_done h hc, rfl, fun j hj => ?_, s.bufSameOutside_cipherPayload d (!c)⟩
  rw [← State.payloadKey_eq]
  exact s.bufByte_cipherPayload_inside d (!c) j hj

end

/-- Settles O51, on the three paths of a payload cipher that starts from plaintext. -/
theorem encryptPayload : Obligations.EncryptPayload :=
  ⟨rfl, rfl, fun d _ => ⟨(isPayloadCipher_ctrEnc d).exec_bounds,
    fun h hc => (isPayloadCipher_ctrEnc d).exec_state h (by simp [hc]),
    (isPayloadCipher_ctrEnc d).ciphersPayload⟩⟩

/-- Settles O52, on the three paths of a payload cipher that starts from ciphertext. -/
theorem decryptPayload : Obligations.DecryptPayload :=
  ⟨rfl, rfl, fun d _ => ⟨(isPayloadCipher_ctrDec d).exec_bounds,
    fun h hc => (isPayloadCipher_ctrDec d).exec_state h (by simp [hc]),
    (isPayloadCipher_ctrDec d).ciphersPayload⟩⟩

/-! ### The inverse law (R285) -/

/-- Both times the keystream is the same, since it depends on the length of the string only. -/
theorem ctrx_ctrx (k : Block) (d : Dir) (a f : Word) (p : List Byte) : ctrx k d a f (ctrx k d a f p) = p := by
  have hcovers : p.length ≤ ((keystream k d a f (blockCount p.length)).take p.length).length := by
    simpa using blockCount_covers p.length
  rw [ctrx, ctrx_length, ctrx, xorBytes_cancel _ _ hcovers]

/-- A `MemWrite` over one of the same range leaves nothing of it. -/
theorem State.bufByte_memWrite_memWrite (s : State) (a x : Nat) (bs cs : List Byte) (h : bs.length = cs.length) :
    ((s.memWrite a bs).memWrite a cs).bufByte x = (s.memWrite a cs).bufByte x := by
  by_cases hx : a ≤ x ∧ x < a + cs.length
  · obtain ⟨k, rfl⟩ := Nat.exists_eq_add_of_le hx.1
    rw [State.bufByte_memWrite_inside _ _ _ _ (by omega), State.bufByte_memWrite_inside _ _ _ _ (by omega)]
  · rw [State.bufByte_memWrite_outside _ _ _ _ (by omega), State.bufByte_memWrite_outside _ _ _ _ (by omega),
      State.bufByte_memWrite_outside _ _ _ _ (by omega)]

/-- The payload as the cipher leaves it. -/
theorem State.memRead_cipherPayload (s : State) (d : Dir) (c : Bool) :
    (s.cipherPayload d c).memRead s.payoff.toNat s.paylen.toNat
      = ctrx (keyBlock s.payloadKey) d s.devaddr s.fcnt32 (s.memRead s.payoff.toNat s.paylen.toNat) := by
  have h := s.memRead_memWrite_same s.payoff.toNat
    (ctrx (keyBlock s.payloadKey) d s.devaddr s.fcnt32 (s.memRead s.payoff.toNat s.paylen.toNat))
  rwa [ctrx_length, State.memRead_length] at h

/-- The payload ciphered twice, whatever `STATUS` and the flag hold in between, is the payload. -/
theorem State.bufSame_cipherPayload_twice (s : State) (d : Dir) (c v b c' : Bool) :
    BufSame s ((((s.cipherPayload d c).succeed v).setCiph b).cipherPayload d c') := by
  intro x
  have hsecond : ctrx (keyBlock s.payloadKey) d s.devaddr s.fcnt32
      ((s.cipherPayload d c).memRead s.payoff.toNat s.paylen.toNat) = s.memRead s.payoff.toNat s.paylen.toNat := by
    rw [State.memRead_cipherPayload, ctrx_ctrx]
  calc ((((s.cipherPayload d c).succeed v).setCiph b).cipherPayload d c').bufByte x
      = ((s.cipherPayload d c).memWrite s.payoff.toNat (ctrx (keyBlock s.payloadKey) d s.devaddr s.fcnt32
          ((s.cipherPayload d c).memRead s.payoff.toNat s.paylen.toNat))).bufByte x := rfl
    _ = ((s.cipherPayload d c).memWrite s.payoff.toNat (s.memRead s.payoff.toNat s.paylen.toNat)).bufByte x := by
      rw [hsecond]
    _ = (s.memWrite s.payoff.toNat (s.memRead s.payoff.toNat s.paylen.toNat)).bufByte x :=
      s.bufByte_memWrite_memWrite _ x _ _ (ctrx_length ..)
    _ = s.bufByte x := s.bufByte_memWrite_memRead _ _ x

/-- Settles O53: both second commands cipher the payload again, and a second `CTR_ENC` finds the flag set. -/
theorem payloadCipherIsSelfInverse : Obligations.PayloadCipherIsSelfInverse := by
  refine ⟨ctrx_ctrx, fun d s h hc => ?_⟩
  have henc := isPayloadCipher_ctrEnc d
  have hdec := isPayloadCipher_ctrDec d
  exact ⟨_, _, _, henc.exec_done h hc, rfl, hdec.exec_done h rfl, rfl, rfl,
    s.bufSame_cipherPayload_twice d true false true false, henc.exec_state h (by simp), henc.exec_done h rfl, rfl,
    s.bufSame_cipherPayload_twice d true false false true⟩

end Sys2Proof.Machine
end

section
/-! The JoinAccept cipher family: `JA_ENC` and `JA_DEC` are one operation with the two directions of AES, and each
direction undoes the other. The paths, the bytes and the inverse law are proved of that operation. -/

namespace Sys2Proof.Machine

/-! ### The two commands, path by path -/

/-- The command `i` applies `f` under `APPKEY` to the blocks of the JoinAccept when `CTRL.CIPH` is `c`, and turns the
flag over (R312, R313). -/
def IsJoinAcceptCipher (i : Instr) (f : Block → Block → Block) (c : Bool) : Prop :=
  ∀ s : State, exec i s = finish s
    (if s.joinAcceptSize then
      if s.ciph = c then .done (s.cipherJoinAccept (f (keyBlock s.appkey)) (!c)) false
      else .raised .state
    else .raised .sizeMismatch)

theorem isJoinAcceptCipher_jaEnc : IsJoinAcceptCipher .jaEnc aesDec false := by
  intro s
  rw [exec, execJaEnc]
  cases s.ciph <;> rfl

theorem isJoinAcceptCipher_jaDec : IsJoinAcceptCipher .jaDec aesEnc true := fun _ => rfl

section
variable {i : Instr} {f : Block → Block → Block} {c : Bool} {s : State}

theorem IsJoinAcceptCipher.exec_size (hi : IsJoinAcceptCipher i f c) (h : s.len.toNat ≠ 13 ∧ s.len.toNat ≠ 29) :
    exec i s = .next (s.raise .sizeMismatch) := by
  rw [hi, if_neg (State.not_joinAcceptSize h), finish_raised]

theorem IsJoinAcceptCipher.exec_state (hi : IsJoinAcceptCipher i f c) (h : s.len.toNat = 13 ∨ s.len.toNat = 29)
    (hc : s.ciph ≠ c) : exec i s = .next (s.raise .state) := by
  rw [hi, if_pos (s.joinAcceptSize_iff.2 h), if_neg hc, finish_raised]

theorem IsJoinAcceptCipher.exec_done (hi : IsJoinAcceptCipher i f c) (h : s.len.toNat = 13 ∨ s.len.toNat = 29)
    (hc : s.ciph = c) : exec i s = .next ((s.cipherJoinAccept (f (keyBlock s.appkey)) (!c)).succeed false) := by
  rw [hi, if_pos (s.joinAcceptSize_iff.2 h), if_pos hc, finish_done]

end

/-! ### The bytes of the region (R310, R311) -/

/-- The bytes the cipher writes back: the region `BUF[1..LEN+4)`, block by block. -/
def State.joinAcceptBlocks (s : State) (f : Block → Block) : List Byte :=
  ecb f (blockCount (s.len.toNat + 3)) (s.memRead 1 (s.len.toNat + 3))

theorem State.bufByte_cipherJoinAccept (s : State) (f : Block → Block) (c : Bool) (x : Nat) :
    (s.cipherJoinAccept f c).bufByte x = (s.memWrite 1 (s.joinAcceptBlocks f)).bufByte x := rfl

section
variable {s : State} (h : s.len.toNat = 13 ∨ s.len.toNat = 29)
include h

/-- The region is whole blocks, so the cipher keeps its length. -/
theorem State.joinAcceptBlocks_length (f : Block → Block) : (s.joinAcceptBlocks f).length = s.len.toNat + 3 :=
  (ecb_length ..).trans (joinAccept_region (s.joinAcceptSize_iff.2 h))

theorem State.joinAcceptBlocks_getD (f : Block → Block) {j : Nat} (hj : j < s.len.toNat + 3) :
    (s.joinAcceptBlocks f).getD j 0 =
      (f (Block.ofBytes (s.memRead (1 + 16 * (j / 16)) 16))).toBytes.getD (j % 16) 0 := by
  rw [State.joinAcceptBlocks, ecb_getD _ _ _ _ (by have := blockCount_covers (s.len.toNat + 3); omega),
    State.memRead_drop_take _ _ _ _ _ (by omega)]

theorem State.bufByte_cipherJoinAccept_inside (f : Block → Block) (c : Bool) {j : Nat} (hj : j < s.len.toNat + 3) :
    (s.cipherJoinAccept f c).bufByte (1 + j) =
      (f (Block.ofBytes (s.memRead (1 + 16 * (j / 16)) 16))).toBytes.getD (j % 16) 0 := by
  rw [State.bufByte_cipherJoinAccept,
    State.bufByte_memWrite_inside _ _ _ _ (by rwa [State.joinAcceptBlocks_length h]),
    State.joinAcceptBlocks_getD h f hj]

theorem State.bufSameOutside_cipherJoinAccept (f : Block → Block) (c : Bool) :
    BufSameOutside s (s.cipherJoinAccept f c) 1 (s.len.toNat + 3) :=
  fun x hx => s.bufByte_memWrite_outside 1 x (s.joinAcceptBlocks f) (by rwa [State.joinAcceptBlocks_length h])

theorem IsJoinAcceptCipher.ciphersJoinAccept {i : Instr} {f : Block → Block → Block} {c : Bool}
    (hi : IsJoinAcceptCipher i f c) (hc : s.ciph = c) : CiphersJoinAccept i (f (keyBlock s.appkey)) s (!c) :=
  ⟨_, hi.exec_done h hc, rfl, fun _ hj => State.bufByte_cipherJoinAccept_inside h _ (!c) hj,
    State.bufSameOutside_cipherJoinAccept h _ (!c)⟩

end

/-- Settles O54, on the three paths of a JoinAccept cipher that starts from plaintext. -/
theorem encryptJoinAccept : Obligations.EncryptJoinAccept :=
  ⟨rfl, fun _ => ⟨isJoinAcceptCipher_jaEnc.exec_size,
    fun h hc => isJoinAcceptCipher_jaEnc.exec_state h (by simp [hc]),
    fun h => isJoinAcceptCipher_jaEnc.ciphersJoinAccept h⟩⟩

/-- Settles O55, on the three paths of a JoinAccept cipher that starts from ciphertext. -/
theorem decryptJoinAccept : Obligations.DecryptJoinAccept :=
  ⟨rfl, fun _ => ⟨isJoinAcceptCipher_jaDec.exec_size,
    fun h hc => isJoinAcceptCipher_jaDec.exec_state h (by simp [hc]),
    fun h => isJoinAcceptCipher_jaDec.ciphersJoinAccept h⟩⟩

/-! ### The inverse law (R314) -/

section
variable {s : State} (h : s.len.toNat = 13 ∨ s.len.toNat = 29)
include h

/-- The region as the cipher leaves it. -/
theorem State.memRead_cipherJoinAccept (f : Block → Block) (c : Bool) :
    (s.cipherJoinAccept f c).memRead 1 (s.len.toNat + 3) = s.joinAcceptBlocks f := by
  have hread := s.memRead_memWrite_same 1 (s.joinAcceptBlocks f)
  rwa [State.joinAcceptBlocks_length h] at hread

/-- A block function on the region, then its inverse, whatever `STATUS` holds in between, leave the region. -/
theorem State.bufSame_cipherJoinAccept_inverse {f g : Block → Block} (hfg : ∀ b, g (f b) = b) (c v c' : Bool) :
    BufSame s (((s.cipherJoinAccept f c).succeed v).cipherJoinAccept g c') := by
  intro x
  have hwhole : (s.memRead 1 (s.len.toNat + 3)).length = 16 * blockCount (s.len.toNat + 3) := by
    rw [State.memRead_length, joinAccept_region (s.joinAcceptSize_iff.2 h)]
  have hsecond : ((s.cipherJoinAccept f c).succeed v).joinAcceptBlocks g = s.memRead 1 (s.len.toNat + 3) :=
    calc ((s.cipherJoinAccept f c).succeed v).joinAcceptBlocks g
        = ecb g (blockCount (s.len.toNat + 3)) ((s.cipherJoinAccept f c).memRead 1 (s.len.toNat + 3)) := rfl
      _ = s.memRead 1 (s.len.toNat + 3) := by
        rw [State.memRead_cipherJoinAccept h]
        exact ecb_inverse f g hfg _ _ hwhole
  calc (((s.cipherJoinAccept f c).succeed v).cipherJoinAccept g c').bufByte x
      = ((s.memWrite 1 (s.joinAcceptBlocks f)).memWrite 1
          (((s.cipherJoinAccept f c).succeed v).joinAcceptBlocks g)).bufByte x := rfl
    _ = (s.memWrite 1 (s.memRead 1 (s.len.toNat + 3))).bufByte x := by
      rw [hsecond, State.bufByte_memWrite_memWrite _ _ _ _ _
        (by rw [State.joinAcceptBlocks_length h, State.memRead_length])]
    _ = s.bufByte x := s.bufByte_memWrite_memRead 1 _ x

/-- A JoinAccept cipher, then the one of the inverse block function, restores the buffer and the flag. -/
theorem IsJoinAcceptCipher.roundTrip {i i' : Instr} {f g : Block → Block → Block} {c : Bool}
    (hi : IsJoinAcceptCipher i f c) (hi' : IsJoinAcceptCipher i' g (!c)) (hfg : ∀ k b, g k (f k b) = b)
    (hc : s.ciph = c) : ∃ t u, exec i s = .next t ∧ exec i' t = .next u ∧
      u.err = false ∧ u.ciph = c ∧ BufSame s u :=
  ⟨_, _, hi.exec_done h hc, hi'.exec_done h rfl, rfl, Bool.not_not c,
    State.bufSame_cipherJoinAccept_inverse h (hfg _) (!c) false (!!c)⟩

end

/-- Settles O56: the two commands start from opposite flags and apply inverse block functions. -/
theorem joinAcceptCipherRoundTrips : Obligations.JoinAcceptCipherRoundTrips :=
  fun _ h => ⟨isJoinAcceptCipher_jaEnc.roundTrip h isJoinAcceptCipher_jaDec aesEnc_aesDec,
    isJoinAcceptCipher_jaDec.roundTrip h isJoinAcceptCipher_jaEnc aesDec_aesEnc⟩

end Sys2Proof.Machine
end

section
/-! The exceptions family: how a step and a command word end, what a failed command leaves, the order of the checks of
R345, and what the keys and `STATUS` and `MIC` are shielded from. The matrix of R344 is read column by column: one lemma
says what a command does when the condition of the column is the first that holds. -/

namespace Sys2Proof.Machine

/-! ### How a step ends (R359) -/

theorem hostRead_next_or_busError (off w : Nat) (s : State) :
    (∃ t, hostRead off w s = .next t) ∨ hostRead off w s = .fault .busError := by
  rw [hostRead]
  split
  · exact .inl ⟨_, rfl⟩
  · exact .inr rfl

theorem hostWrite_next_or_busError (off w v : Nat) (s : State) :
    (∃ t, hostWrite off w v s = .next t) ∨ hostWrite off w v s = .fault .busError := by
  rw [hostWrite]
  split
  · split
    · exact .inl (exists_next_runCommand _ s)
    · exact .inl ⟨_, rfl⟩
  · exact .inr rfl

/-- Only a host access can end in a fault: a reset and a return of power always give a next state. -/
theorem runEvent_next_or_busError (e : HostEvent) (s : State) :
    (∃ t, runEvent e s = .next t) ∨
    (runEvent e s = .fault .busError ∧ ∃ a w v, e = .read a w ∨ e = .write a w v) := by
  cases e with
  | read a w =>
    cases ha : offsetOf a with
    | none => exact .inl ⟨_, runEvent_read_outside ha w s⟩
    | some off =>
      rw [runEvent_read ha]
      exact (hostRead_next_or_busError off w s).imp_right fun h => ⟨h, a, w, 0, .inl rfl⟩
  | write a w v =>
    cases ha : offsetOf a with
    | none => exact .inl ⟨_, runEvent_write_outside ha w v s⟩
    | some off =>
      rw [runEvent_write ha]
      exact (hostWrite_next_or_busError off w v s).imp_right fun h => ⟨h, a, w, v, .inr rfl⟩
  | reset => exact .inl ⟨_, rfl⟩
  | powerUp => exact .inl ⟨_, rfl⟩

/-- Settles O11: an idle step changes nothing, and any other is the event at the head of the queue. -/
theorem stepEndsInNextStateOrBusError : Obligations.StepEndsInNextStateOrBusError := by
  refine ⟨fun s => ?_, exists_next_runCommand⟩
  cases hp : s.pending with
  | nil => exact .inl ⟨s, step_nil hp⟩
  | cons e rest =>
    rw [step_cons hp, List.head?_cons]
    simpa only [Option.some.injEq] using runEvent_next_or_busError e _

/-! ### What the keys, `STATUS` and `MIC` are shielded from (R346, R351) -/

theorem State.readValue_withKeys (s : State) (k1 k2 k3 : BitVec 128) (off w : Nat) :
    (s.withKeys k1 k2 k3).readValue off w = s.readValue off w := by
  simp only [State.readValue, State.readByte_withKeys]

/-- Settles O16: whether the bus accepts a read does not depend on the state, and its value not on the keys. -/
theorem keysNeverReachAHostRead : Obligations.KeysNeverReachAHostRead := by
  intro s t off w k1 k2 k3 h
  obtain ⟨haccept, rfl⟩ := hostRead_cases h
  rw [hostRead, if_pos haccept, State.readValue_withKeys]
  rfl

/-- Settles O28: a write at another offset than 0 writes bytes of the window, and none of those is in `STATUS` or
`MIC`. -/
theorem onlyCommandsWriteStatusAndMic : Obligations.OnlyCommandsWriteStatusAndMic := by
  intro s t off w v hoff h
  rcases hostWrite_cases h with ⟨h0, _⟩ | ⟨_, rfl⟩
  · exact absurd h0 hoff
  · obtain ⟨herr, hvalid, hcode, hmic, _⟩ := s.writeBytes_frame off (leBytes w v)
    exact ⟨herr, hvalid, hcode, hmic⟩

/-! ### The error path (R342) -/

/-- The error path shows `1 | code << 8` in `STATUS` (R35, R342). -/
theorem State.getReg_status_raise (s : State) (e : ErrCode) :
    (s.raise e).getReg .status = 1 ||| (e.code.setWidth 32 <<< 8) := by
  simp [State.getReg, State.statusWord]

/-- Settles O24: a command word that ends with `ERR = 1` took the error path, since a success clears `ERR`. -/
theorem failedCommandChangesStatusOnly : Obligations.FailedCommandChangesStatusOnly := by
  intro w s t h herr
  rcases runCommand_cases h with ⟨e, hok, hcrypto, rfl⟩ | ⟨i, u, v, _, _, rfl⟩
  · exact ⟨e, hok, hcrypto, rfl, s.getReg_status_raise e⟩
  · cases herr

/-! ### The matrix of R344, column by column -/

section
variable {i : Instr} {s : State}

/-- The commands that check a size check no bounds (R345). -/
theorem not_boundsFails_of_sizeFails (h : sizeFails i s) (s' : State) : ¬ boundsFails i s' := by
  cases i with
  | micJrSet | micJrChk | micJaSet | micJaChk | jaEnc | jaDec => exact id
  | _ => cases h

/-- The commands that check the flag check no argument (R345). -/
theorem not_argumentFails_of_stateFails (h : stateFails i s) (s' : State) : ¬ argumentFails i s' := by
  cases i with
  | micJaSet | ctrEnc | ctrDec | jaEnc | jaDec => exact id
  | _ => cases h

/-- The size check is the first of every command that has one. -/
theorem exec_of_sizeFails (h : sizeFails i s) : exec i s = .next (s.raise .sizeMismatch) := by
  cases i with
  | micJrSet => exact exec_micJrSet_size h
  | micJrChk => exact exec_micJrChk_size h
  | micJaSet => exact exec_micJaSet_size h
  | micJaChk => exact exec_micJaChk_size h
  | jaEnc => exact isJoinAcceptCipher_jaEnc.exec_size h
  | jaDec => exact isJoinAcceptCipher_jaDec.exec_size h
  | _ => cases h

/-- The bounds check is the first of every command that has one. -/
theorem exec_of_boundsFails (h : boundsFails i s) : exec i s = .next (s.raise .bounds) := by
  cases i with
  | ctrEnc d => exact (isPayloadCipher_ctrEnc d).exec_bounds h
  | ctrDec d => exact (isPayloadCipher_ctrDec d).exec_bounds h
  | encDevaddr => exact isEncoder_encDevaddr.exec_bounds (Nat.add_lt_add_right h 4)
  | encEui => exact isEncoder_encEui.exec_bounds (Nat.add_lt_add_right h 8)
  | encNonce16 => exact isEncoder_encNonce16.exec_bounds (Nat.add_lt_add_right h 2)
  | encNonce24 => exact isEncoder_encNonce24.exec_bounds (Nat.add_lt_add_right h 3)
  | encFreq24 => exact isEncoder_encFreq24.exec_bounds (Nat.add_lt_add_right h 3)
  | decDevaddr => exact isDecoder_decDevaddr.exec_bounds (Nat.add_lt_add_right h 4)
  | decEui => exact isDecoder_decEui.exec_bounds (Nat.add_lt_add_right h 8)
  | decNonce16 => exact isDecoder_decNonce16.exec_bounds (Nat.add_lt_add_right h 2)
  | decNonce24 => exact isDecoder_decNonce24.exec_bounds (Nat.add_lt_add_right h 3)
  | decFreq24 => exact isDecoder_decFreq24.exec_bounds (Nat.add_lt_add_right h 3)
  | _ => cases h

/-- A JoinAccept command whose size check passes has one of the two lengths (R249). -/
theorem joinAccept_len_of_not_fails (h : ¬ (s.len.toNat ≠ 13 ∧ s.len.toNat ≠ 29)) :
    s.len.toNat = 13 ∨ s.len.toNat = 29 := or_iff_not_and_not.2 h

/-- A field whose offset passes the bounds check ends inside the buffer. -/
theorem field_fits_of_not_fails {bound n : Nat} (h : ¬ bound < s.foff.toNat) (hbound : bound + n = 512) :
    s.foff.toNat + n ≤ 512 := by omega

/-- The flag is checked after the size or the bounds. -/
theorem exec_of_stateFails (hsize : ¬ sizeFails i s) (hbounds : ¬ boundsFails i s) (h : stateFails i s) :
    exec i s = .next (s.raise .state) := by
  cases i with
  | micJaSet => exact exec_micJaSet_ciphertext (joinAccept_len_of_not_fails hsize) h
  | ctrEnc d => exact (isPayloadCipher_ctrEnc d).exec_state (Nat.le_of_not_lt hbounds) (ne_of_eq_of_ne h (by decide))
  | ctrDec d => exact (isPayloadCipher_ctrDec d).exec_state (Nat.le_of_not_lt hbounds) (ne_of_eq_of_ne h (by decide))
  | jaEnc =>
    exact isJoinAcceptCipher_jaEnc.exec_state (joinAccept_len_of_not_fails hsize) (ne_of_eq_of_ne h (by decide))
  | jaDec =>
    exact isJoinAcceptCipher_jaDec.exec_state (joinAccept_len_of_not_fails hsize) (ne_of_eq_of_ne h (by decide))
  | _ => cases h

/-- The bound on the number of units in `VAL`, as a bound on `VAL`. -/
theorem IsEncoder.exec_argument_of_le {n unit : Nat} (hi : IsEncoder i n unit) (hunit : 0 < unit)
    (hfits : s.foff.toNat + n ≤ 512) (hval : 256 ^ n * unit ≤ s.val.toNat) :
    exec i s = .next (s.raise .invalidArgument) :=
  hi.exec_argument hfits ((Nat.le_div_iff_mul_le hunit).2 hval)

/-- The value of an encoder is checked after the bounds. -/
theorem exec_of_argumentFails (hbounds : ¬ boundsFails i s) (h : argumentFails i s) :
    exec i s = .next (s.raise .invalidArgument) := by
  cases i with
  | encDevaddr => exact isEncoder_encDevaddr.exec_argument_of_le (by decide) (field_fits_of_not_fails hbounds rfl) h
  | encNonce16 => exact isEncoder_encNonce16.exec_argument_of_le (by decide) (field_fits_of_not_fails hbounds rfl) h
  | encNonce24 => exact isEncoder_encNonce24.exec_argument_of_le (by decide) (field_fits_of_not_fails hbounds rfl) h
  | encFreq24 => exact isEncoder_encFreq24.exec_argument_of_le (by decide) (field_fits_of_not_fails hbounds rfl) h
  | _ => cases h

/-- An encoder whose two checks pass succeeds. -/
theorem IsEncoder.exec_succeeds {n unit : Nat} (hi : IsEncoder i n unit) (hunit : 0 < unit)
    (hfits : s.foff.toNat + n ≤ 512) (hval : s.val.toNat < 256 ^ n * unit) :
    ∃ (u : State) (v : Bool), exec i s = .next (u.succeed v) :=
  ⟨_, _, hi.exec_done hfits ((Nat.div_lt_iff_lt_mul hunit).2 hval)⟩

/-- With no condition of the matrix met, the command succeeds. -/
theorem exec_of_none_fails (hsize : ¬ sizeFails i s) (hbounds : ¬ boundsFails i s) (hstate : ¬ stateFails i s)
    (harg : ¬ argumentFails i s) : ∃ (u : State) (v : Bool), exec i s = .next (u.succeed v) := by
  cases i with
  | micDataSet d => exact ⟨_, _, exec_micDataSet d s⟩
  | micDataChk d => exact ⟨_, _, exec_micDataChk d s⟩
  | micJrSet => exact ⟨_, _, exec_micJrSet (not_not.1 hsize)⟩
  | micJrChk => exact ⟨_, _, exec_micJrChk (not_not.1 hsize)⟩
  | micJaSet =>
    exact ⟨_, _, exec_micJaSet_plaintext (joinAccept_len_of_not_fails hsize) (Bool.eq_false_of_not_eq_true hstate)⟩
  | micJaChk =>
    cases hc : s.ciph with
    | true => exact ⟨_, _, exec_micJaChk_ciphertext (joinAccept_len_of_not_fails hsize) hc⟩
    | false => exact ⟨_, _, exec_micJaChk_plaintext (joinAccept_len_of_not_fails hsize) hc⟩
  | ctrEnc d =>
    exact ⟨_, _, (isPayloadCipher_ctrEnc d).exec_done (Nat.le_of_not_lt hbounds)
      (Bool.eq_false_of_not_eq_true hstate)⟩
  | ctrDec d =>
    exact ⟨_, _, (isPayloadCipher_ctrDec d).exec_done (Nat.le_of_not_lt hbounds)
      (Bool.eq_true_of_not_eq_false hstate)⟩
  | jaEnc =>
    exact ⟨_, _, isJoinAcceptCipher_jaEnc.exec_done (joinAccept_len_of_not_fails hsize)
      (Bool.eq_false_of_not_eq_true hstate)⟩
  | jaDec =>
    exact ⟨_, _, isJoinAcceptCipher_jaDec.exec_done (joinAccept_len_of_not_fails hsize)
      (Bool.eq_true_of_not_eq_false hstate)⟩
  | encDevaddr =>
    exact isEncoder_encDevaddr.exec_succeeds (by decide) (field_fits_of_not_fails hbounds rfl) (Nat.lt_of_not_le harg)
  | encEui =>
    exact isEncoder_encEui.exec_succeeds (by decide) (field_fits_of_not_fails hbounds rfl) s.val.isLt
  | encNonce16 =>
    exact isEncoder_encNonce16.exec_succeeds (by decide) (field_fits_of_not_fails hbounds rfl) (Nat.lt_of_not_le harg)
  | encNonce24 =>
    exact isEncoder_encNonce24.exec_succeeds (by decide) (field_fits_of_not_fails hbounds rfl) (Nat.lt_of_not_le harg)
  | encFreq24 =>
    exact isEncoder_encFreq24.exec_succeeds (by decide) (field_fits_of_not_fails hbounds rfl) (Nat.lt_of_not_le harg)
  | decDevaddr => exact ⟨_, _, isDecoder_decDevaddr.exec_done (field_fits_of_not_fails hbounds rfl)⟩
  | decEui => exact ⟨_, _, isDecoder_decEui.exec_done (field_fits_of_not_fails hbounds rfl)⟩
  | decNonce16 => exact ⟨_, _, isDecoder_decNonce16.exec_done (field_fits_of_not_fails hbounds rfl)⟩
  | decNonce24 => exact ⟨_, _, isDecoder_decNonce24.exec_done (field_fits_of_not_fails hbounds rfl)⟩
  | decFreq24 => exact ⟨_, _, isDecoder_decFreq24.exec_done (field_fits_of_not_fails hbounds rfl)⟩

/-! ### The order of the checks (R345) -/

theorem errcode_of_raise {e : ErrCode} {t : State} (hraise : exec i s = .next (s.raise e))
    (h : exec i s = .next t) : t.errcode = e.code := by
  rw [hraise] at h
  cases h
  rfl

/-- A command ends with the code of the first column of R344 whose condition holds. -/
theorem endsWithCode_of_exec {t : State} (h : exec i s = .next t) : EndsWithCode i s t.errcode := by
  refine ⟨fun hsize => errcode_of_raise (exec_of_sizeFails hsize) h,
    fun _ hbounds => errcode_of_raise (exec_of_boundsFails hbounds) h,
    fun hsize hbounds hstate => errcode_of_raise (exec_of_stateFails hsize hbounds hstate) h,
    fun _ hbounds _ harg => errcode_of_raise (exec_of_argumentFails hbounds harg) h,
    fun hsize hbounds hstate harg => ?_⟩
  obtain ⟨u, v, hdone⟩ := exec_of_none_fails hsize hbounds hstate harg
  rw [hdone] at h
  cases h
  rfl

/-- In a legal `STATUS` the flag `ERR` says whether there is a code (R35, R341). -/
theorem State.statusLegal.err_iff (h : s.statusLegal) : s.err = true ↔ s.errcode ≠ 0 := by
  rcases h with ⟨herr, hcode⟩ | ⟨herr, _, hpos, _⟩
  · simp [herr, hcode]
  · exact iff_of_true herr fun h0 => by simp [h0] at hpos

end

/-- Settles O25: an illegal word by the decoder, a command by the columns of the matrix, `ERR` by the legality of
`STATUS`. -/
theorem firstFailingCheckGivesTheCode : Obligations.FirstFailingCheckGivesTheCode := by
  refine ⟨fun w s => ?_, fun _ _ s' ⟨hsize, hbounds⟩ => not_boundsFails_of_sizeFails hsize s' hbounds,
    fun _ _ s' ⟨hstate, harg⟩ => not_argumentFails_of_stateFails hstate s' harg⟩
  obtain ⟨t, ht⟩ := exists_next_runCommand w s
  refine ⟨t, ht, (runCommand_statusLegal ht).err_iff, fun why hd => ?_, fun i hd => ?_⟩
  · rw [runCommand_of_illegal hd] at ht
    cases ht
    rfl
  · exact endsWithCode_of_exec ((runCommand_of_command hd s).symm.trans ht)

end Sys2Proof.Machine
end

section
/-! The reset and hazards family: what reset leaves, the two orders of commands that a frame goes through, and the
orders that the flag rules out. Each order is followed command by command through the equations of `exec`; what is left is that
the buffer after the ciphers is the buffer before them, as far as the message and its MIC go. -/

namespace Sys2Proof.Machine

/-! ### Reset (R380 to R382) -/

/-- A buffer that nothing has written shows its draw (R47). -/
theorem State.bufByte_of_mem_nil {s : State} (h : s.mem = []) (a : Nat) : s.bufByte a = Config.bufReset s.draw a := by
  rw [State.bufByte, h, Memory.find]

/-- Settles O1: the registers are the fields of `State.reset`, the buffer is unwritten, and `CMD` holds no state. -/
theorem resetLeavesTheSpecValues : Obligations.ResetLeavesTheSpecValues :=
  ⟨rfl, rfl, rfl, rfl, rfl, rfl, rfl, rfl, rfl, rfl, rfl, rfl, rfl, rfl, rfl, rfl,
    State.bufByte_of_mem_nil rfl, hostRead_cmd State.reset⟩

/-- A step with the platform reset pending is the reset. -/
theorem step_reset {s : State} {rest : List HostEvent} (hp : s.pending = .reset :: rest) :
    step s = .next { State.reset with draw := s.draw + 1, pending := rest } :=
  step_cons hp

/-- Settles O2, by `step_reset`; the buffer is unwritten after it. -/
theorem platformResetFromEveryState : Obligations.PlatformResetFromEveryState :=
  fun _ _ hp => ⟨step_reset hp, State.bufByte_of_mem_nil rfl⟩

/-- Settles O4: nothing is written, `STATUS` shows no error, and nothing is pending. -/
theorem theInvariantHoldsAtReset : Obligations.TheInvariantHoldsAtReset :=
  ⟨⟨.nil, List.forall_mem_nil _⟩, .inl ⟨rfl, rfl⟩, List.not_mem_nil⟩

/-! ### What depends on the bytes of the buffer only -/

section
variable {s t : State} (hbuf : BufSame s t)
include hbuf

theorem BufSame.memRead (a n : Nat) : t.memRead a n = s.memRead a n :=
  State.memRead_congr fun k _ => hbuf (a + k)

/-- A check of a join message finds the same in the same buffer under the same key. -/
theorem BufSame.micMatches_joinMic (hkey : t.appkey = s.appkey) (n : Nat) :
    t.micMatches n (t.joinMic n) = s.micMatches n (s.joinMic n) := by
  rw [State.micMatches, State.micMatches, State.joinMic, State.joinMic, hbuf.memRead, hbuf.memRead, hkey]

end

/-- The MIC of a join message, once placed after it, is the one a check finds. -/
theorem State.micMatches_joinMic_placeMic (s : State) (n : Nat) (v : Bool) :
    ((s.placeMic n (s.joinMic n)).succeed v).micMatches n
      (((s.placeMic n (s.joinMic n)).succeed v).joinMic n) = true := by
  rw [State.joinMic_placeMic]
  exact s.micMatches_placeMic _ n _ (micOf_length _ _) rfl rfl

/-- The MIC of a data message, once placed after it, is the one a check finds. -/
theorem State.micMatches_dataMic_placeMic (s : State) (d : Dir) (v : Bool) :
    ((s.placeMic s.len.toNat (s.dataMic d)).succeed v).micMatches s.len.toNat
      (((s.placeMic s.len.toNat (s.dataMic d)).succeed v).dataMic d) = true := by
  rw [State.dataMic_placeMic]
  exact s.micMatches_placeMic _ _ _ (micOf_length _ _) rfl rfl

/-! ### The JoinAccept path (R314, R390) -/

/-- Settles O57: the two ciphers restore the buffer that `MIC_JA_SET` left, so the check finds the MIC it placed, and
the message in front of that MIC is untouched. -/
theorem joinAcceptPathValidates : Obligations.JoinAcceptPathValidates := by
  intro s h hc
  have hbuf := State.bufSame_cipherJoinAccept_inverse
    (s := (s.placeMic s.len.toNat (s.joinMic s.len.toNat)).succeed false) h
    (aesEnc_aesDec (keyBlock s.appkey)) true false false
  exact ⟨_, _, _, _, exec_micJaSet_plaintext h hc, isJoinAcceptCipher_jaEnc.exec_done h hc,
    isJoinAcceptCipher_jaDec.exec_done h rfl, exec_micJaChk_plaintext h rfl,
    (hbuf.micMatches_joinMic rfl _).trans (s.micMatches_joinMic_placeMic _ false), rfl,
    (hbuf.memRead 0 _).trans (s.memRead_placeMic _ _)⟩

/-! ### The data-frame path (R390) -/

/-- The same write in two buffers keeps a location alike. -/
theorem State.bufByte_memWrite_congr {s t : State} {x : Nat} (h : t.bufByte x = s.bufByte x) (a : Nat)
    (bs : List Byte) : (t.memWrite a bs).bufByte x = (s.memWrite a bs).bufByte x := by
  by_cases hx : a ≤ x ∧ x < a + bs.length
  · obtain ⟨k, rfl⟩ := Nat.exists_eq_add_of_le hx.1
    rw [State.bufByte_memWrite_inside _ _ _ _ (by omega), State.bufByte_memWrite_inside _ _ _ _ (by omega)]
  · rw [State.bufByte_memWrite_outside _ _ _ _ (by omega), State.bufByte_memWrite_outside _ _ _ _ (by omega), h]

/-- In a message that contains the payload, the cipher does the same whether or not a MIC stands after it. -/
theorem State.memRead_cipherPayload_placeMic {s : State} {n : Nat} (h : s.payoff.toNat + s.paylen.toNat ≤ n)
    (mic : List Byte) (d : Dir) (v c : Bool) :
    (((s.placeMic n mic).succeed v).cipherPayload d c).memRead 0 n = (s.cipherPayload d c).memRead 0 n := by
  have hpayload : (s.placeMic n mic).memRead s.payoff.toNat s.paylen.toNat
      = s.memRead s.payoff.toNat s.paylen.toNat := s.memRead_memWrite_apart n _ _ mic (.inl h)
  refine State.memRead_congr fun x hx => ?_
  calc (((s.placeMic n mic).succeed v).cipherPayload d c).bufByte (0 + x)
      = ((s.placeMic n mic).memWrite s.payoff.toNat (ctrx (keyBlock s.payloadKey) d s.devaddr s.fcnt32
          ((s.placeMic n mic).memRead s.payoff.toNat s.paylen.toNat))).bufByte (0 + x) := rfl
    _ = (s.cipherPayload d c).bufByte (0 + x) := by
      rw [hpayload]
      exact State.bufByte_memWrite_congr (s.bufByte_memWrite_outside n _ mic (by omega)) _ _

/-- Settles O58: the MIC stands after the message, so `CTR_DEC` undoes `CTR_ENC` in it, and the check finds the MIC of
the ciphertext it was placed with. -/
theorem dataFramePathRestoresTheMessage : Obligations.DataFramePathRestoresTheMessage := by
  intro d s h hc
  have hbounds : s.payoff.toNat + s.paylen.toNat ≤ 512 := by have := s.len_lt; omega
  have henc := (isPayloadCipher_ctrEnc d).exec_done hbounds hc
  refine ⟨_, _, _, _, henc, exec_micDataSet d _, exec_micDataChk d _, State.micMatches_dataMic_placeMic _ d false,
    (isPayloadCipher_ctrDec d).exec_done hbounds rfl, rfl, rfl, ?_⟩
  calc _ = (((s.cipherPayload d true).succeed false).cipherPayload d false).memRead 0 s.len.toNat :=
        State.memRead_cipherPayload_placeMic (s := (s.cipherPayload d true).succeed false) h _ d _ false
    _ = s.memRead 0 s.len.toNat := (s.bufSame_cipherPayload_twice d true false true false).memRead 0 _

/-! ### Misorderings (R390) -/

section
variable {i i' : Instr} {s t : State}

/-- A command that ended without error raised no code. -/
theorem exec_ne_raise (h : exec i s = .next t) (herr : t.err = false) (e : ErrCode) :
    exec i s ≠ .next (s.raise e) := by
  intro hraise
  rw [hraise] at h
  cases h
  simp at herr

/-- A payload cipher that ended without error left a payload inside the buffer and the flag turned over. -/
theorem IsPayloadCipher.of_success {d : Dir} {c : Bool} (hi : IsPayloadCipher i d c) (h : exec i s = .next t)
    (herr : t.err = false) : t.payoff.toNat + t.paylen.toNat ≤ 512 ∧ t.ciph = !c := by
  have hraise := exec_ne_raise h herr
  have hbounds := Nat.le_of_not_lt fun hb => hraise .bounds (hi.exec_bounds hb)
  have hciph : s.ciph = c := Decidable.of_not_not fun hc => hraise .state (hi.exec_state hbounds hc)
  rw [hi.exec_done hbounds hciph] at h
  cases h
  exact ⟨hbounds, rfl⟩

/-- After a payload cipher, one that starts from the same flag finds it turned over. -/
theorem IsPayloadCipher.fails_after_success {d e : Dir} {c : Bool} (hi : IsPayloadCipher i d c)
    (hi' : IsPayloadCipher i' e c) (h : exec i s = .next t) (herr : t.err = false) : FailsWith i' t 5 := by
  obtain ⟨hbounds, hciph⟩ := hi.of_success h herr
  exact hi'.exec_state hbounds (ne_of_eq_of_ne hciph (Bool.not_ne_self c))

/-- A JoinAccept cipher that ended without error left a JoinAccept with the flag turned over. -/
theorem IsJoinAcceptCipher.of_success {f : Block → Block → Block} {c : Bool} (hi : IsJoinAcceptCipher i f c)
    (h : exec i s = .next t) (herr : t.err = false) : (t.len.toNat = 13 ∨ t.len.toNat = 29) ∧ t.ciph = !c := by
  have hraise := exec_ne_raise h herr
  have hsize := joinAccept_len_of_not_fails fun hs => hraise .sizeMismatch (hi.exec_size hs)
  have hciph : s.ciph = c := Decidable.of_not_not fun hc => hraise .state (hi.exec_state hsize hc)
  rw [hi.exec_done hsize hciph] at h
  cases h
  exact ⟨hsize, rfl⟩

/-- After a JoinAccept cipher, the same one finds the flag turned over. -/
theorem IsJoinAcceptCipher.fails_after_success {f : Block → Block → Block} {c : Bool} (hi : IsJoinAcceptCipher i f c)
    (h : exec i s = .next t) (herr : t.err = false) : FailsWith i t 5 := by
  obtain ⟨hsize, hciph⟩ := hi.of_success h herr
  exact hi.exec_state hsize (ne_of_eq_of_ne hciph (Bool.not_ne_self c))

end

/-- Settles O59: each cipher turns the flag over, and the flag alone decides how the command after it ends. -/
theorem misorderingsAreDetected : Obligations.MisorderingsAreDetected := by
  refine ⟨fun d e _ _ => (isPayloadCipher_ctrEnc d).fails_after_success (isPayloadCipher_ctrEnc e),
    fun s t h herr => ?_,
    fun d e _ _ => (isPayloadCipher_ctrDec d).fails_after_success (isPayloadCipher_ctrDec e),
    fun _ _ => isJoinAcceptCipher_jaDec.fails_after_success⟩
  obtain ⟨hsize, hciph⟩ := isJoinAcceptCipher_jaEnc.of_success h herr
  exact ⟨isJoinAcceptCipher_jaEnc.fails_after_success h herr, exec_micJaSet_ciphertext hsize hciph,
    exec_micJaChk_ciphertext hsize hciph⟩

end Sys2Proof.Machine
end

section
/-! The S-box family: the affine map of R162 is undone by another, and that one reads the field's inverse off each entry
of the table of `SBOX`. -/

namespace Sys2Proof.Machine

/-! ### The formula of R162 -/

/-- The affine map `A` of R162. -/
def sboxAffine (b : Byte) : Byte :=
  b ^^^ b.rotateLeft 1 ^^^ b.rotateLeft 2 ^^^ b.rotateLeft 3 ^^^ b.rotateLeft 4 ^^^ 0x63

/-- The affine map that undoes `A`. -/
def sboxAffineInv (c : Byte) : Byte := c.rotateLeft 1 ^^^ c.rotateLeft 3 ^^^ c.rotateLeft 6 ^^^ 0x05

theorem sboxAffine_sboxAffineInv (c : Byte) : sboxAffine (sboxAffineInv c) = c := by
  revert c; decide +kernel

/-- The inverse `inv(a)` of R162, as the table holds it: `A` is a bijection, so nothing else can stand behind `SBOX(a)`. -/
def sboxInverse (a : Byte) : Byte := sboxAffineInv (sbox a)

theorem sbox_eq_sboxAffine (a : Byte) : sbox a = sboxAffine (sboxInverse a) :=
  (sboxAffine_sboxAffineInv (sbox a)).symm

theorem sboxInverse_zero : sboxInverse 0 = 0 := by decide

/-- The content of the table: every entry but the first is that of an inverse in GF(2^8) (R160). -/
theorem gmul_sboxInverse (a : Byte) : a ≠ 0 → gmul a (sboxInverse a) = 1 := by
  revert a; decide +kernel

/-- Settles O45: the inverse is the one read off the table, and `INV_SBOX` undoes `SBOX`. -/
theorem sboxTablesMatchTheirFormula : Obligations.SboxTablesMatchTheirFormula := by
  intro a
  have hzero : a = 0 → sboxInverse a = 0 := by
    rintro rfl
    exact sboxInverse_zero
  exact ⟨⟨sboxInverse a, hzero, gmul_sboxInverse a, sbox_eq_sboxAffine a⟩, invSbox_sbox a⟩

end Sys2Proof.Machine
end
